-- ==== Sys2Proof/Word.lean ====
section
/-! DEFINITION. The words of the block: `u8`, `u32`, `u64` and `u256` of 00_scope.md R10. -/

namespace Sys2Proof

/-- `u8`. -/
abbrev Byte := BitVec 8

/-- `u32`; `+` on it is the `+32` of R11 and `-` the `-32`. -/
abbrev Word := BitVec 32

/-- `u64`. -/
abbrev Word64 := BitVec 64

/-- A 256-bit unsigned target (R7, R12). -/
abbrev Target := BitVec 256

end Sys2Proof
end

