-- ==== Sys2Proof/Machine/Bytes.lean ====
section
/-! DEFINITION. Byte conversions of 00_scope.md R13 and the byte orders of 20_memory.md R51 to R54. -/

namespace Sys2Proof.Machine

/-- `LE32` (R13). -/
def le32 (b0 b1 b2 b3 : Byte) : Word := b3 ++ b2 ++ b1 ++ b0

/-- `BE32` (R13). -/
def be32 (b0 b1 b2 b3 : Byte) : Word := b0 ++ b1 ++ b2 ++ b3

/-- `bytesBE32` (R13). -/
def bytesBE32 (w : Word) : List Byte :=
  [w.extractLsb' 24 8, w.extractLsb' 16 8, w.extractLsb' 8 8, w.extractLsb' 0 8]

/-- `bytesLE32` (R13). -/
def bytesLE32 (w : Word) : List Byte :=
  [w.extractLsb' 0 8, w.extractLsb' 8 8, w.extractLsb' 16 8, w.extractLsb' 24 8]

/-- The number whose base-256 digits, least significant first, are `d`: `LE256` (R13) when `d` has 32 bytes. -/
def leNat (d : List Byte) : Nat := d.foldr (fun b n => b.toNat + 256 * n) 0

/-- The `k` least significant bytes of `x`, least significant first (R73 "least significant byte first"). -/
def leBytes : Nat → Nat → List Byte
  | 0, _ => []
  | k + 1, x => BitVec.ofNat 8 x :: leBytes k (x / 256)

/-- `byteswap32`: the four bytes of a word in reverse (20_memory.md R54). -/
def byteswap32 (w : Word) : Word :=
  w.extractLsb' 0 8 ++ w.extractLsb' 8 8 ++ w.extractLsb' 16 8 ++ w.extractLsb' 24 8

/-- Byte `j` of a 64-byte block. -/
def blockByte (block : List Byte) (j : Nat) : Byte := block.getD j 0#8

end Sys2Proof.Machine
end

