-- ==== Sys2Proof/Config.lean ====
section
/-! DEFINITION. What an instantiation of the block fixes (00_scope.md R8, 10_state.md R29, R31), and the constants
without a body: the OPEN consensus parameters and the values the spec lets any run draw. -/

namespace Sys2Proof

/-- Compression profile: the source's (DOC) or published BLAKE-256 (R140, D22). -/
inductive Profile where
  | doc
  | blake256
  deriving DecidableEq, Repr

/-- Carry test of `advanceCounter` (R107, D17). -/
inductive CarryRule where
  | zero
  | overflow
  deriving DecidableEq, Repr

/-- `DECODE` and `ENCODE` are an OPEN parameter (D23): the reference definitions of R150 and R155, or some other codec,
of which only what R149 asks is known (Machine/TargetCodec.lean; log 5). -/
inductive Codec where
  | reference
  | other (k : Nat)
  deriving DecidableEq, Repr

/-- Width of the retarget product (R187, D25). -/
inductive ProductWidth where
  | w256
  | unbounded
  deriving DecidableEq, Repr

/-- Whose height a boundary retarget receives (R194, D26). -/
inductive HeightSource where
  | tip
  | next
  deriving DecidableEq, Repr

/-- Every parameter of R8, with the R8 name of each field in its comment. -/
structure Params where
  /-- `NROUNDS` -/
  nrounds : Nat
  /-- `IV` -/
  iv : Vector Word 8
  /-- `CONST` -/
  consts : Vector Word 16
  /-- `SIGMA` -/
  sigma : Vector (Vector (Fin 16) 16) 14
  /-- `PROFILE` -/
  profile : Profile
  /-- `CARRY_RULE` -/
  carryRule : CarryRule
  /-- `PAD_STOP` -/
  padStop : Byte
  /-- `PAD_MARK` -/
  padMark : Byte
  /-- `PAD_MERGED` -/
  padMerged : Byte
  /-- `POW_LIMIT` -/
  powLimit : Target
  /-- `INTERVAL`, in blocks -/
  interval : Nat
  /-- `SPACING`, in seconds; int64 by `Params.TimesFitInt64` -/
  spacing : Int
  /-- `TIMESPAN`, in seconds; int64 by `Params.TimesFitInt64` -/
  timespan : Int
  /-- `HEIGHT_THRESHOLD` -/
  heightThreshold : Int
  /-- `ALLOW_MIN_DIFFICULTY` -/
  allowMinDifficulty : Bool
  /-- `NO_RETARGETING` -/
  noRetargeting : Bool
  /-- `DECODE`, `ENCODE` -/
  codec : Codec
  /-- `PRODUCT_WIDTH` -/
  productWidth : ProductWidth
  /-- `RETARGET_HEIGHT_SOURCE` -/
  heightSource : HeightSource
  deriving DecidableEq, Repr

/-- What a decode reports (R149 item 3): the target and the two conditions. -/
structure Decoded where
  value : Target
  neg : Bool
  ovf : Bool
  deriving DecidableEq, Repr, Inhabited

namespace Config

/-! OPEN parameters without a candidate (D24), log 3. -/

/-- Any 256-bit value; `Machine.openPowLimit` keeps it out of 0, which R254 refuses. -/
opaque powLimitSeed : Target

/-- `ALLOW_MIN_DIFFICULTY` of the instance that `State.reset` describes. -/
opaque allowMinDifficulty : Bool

/-- `NO_RETARGETING` of the instance that `State.reset` describes. -/
opaque noRetargeting : Bool

/-! Codecs other than the reference one (D23), log 5. -/

/-- What codec number `k` reads an exponent and a mantissa as, before the exponent bounds its bytes. -/
opaque otherValue (k : Nat) : Byte → BitVec 24 → Target

/-- Whether codec number `k` reports `NEG` for an exponent and a mantissa whose sign flag is set. -/
opaque otherNeg (k : Nat) : Byte → BitVec 24 → Bool

/-- Whether codec number `k` reports `OVF` for an exponent and a mantissa. -/
opaque otherOvf (k : Nat) : Byte → BitVec 24 → Bool

/-- The mantissa codec number `k` gives a target. -/
opaque otherMantissa (k : Nat) : Target → BitVec 24

/-- Whether codec number `k` counts a further byte for the sign of a target whose top bit fills its top byte. -/
opaque otherSignByte (k : Nat) : Target → Bool

/-! The draws of HE.STATE in phase FINALIZED (40_hash_engine.md R125), each applied to the draw counter, log 8. -/

/-- `draw nat in 0..63`. -/
opaque drawFill : Nat → BitVec 6

/-- `draw bit`. -/
opaque drawFinal : Nat → BitVec 1

/-- `draw u32 × 8`. -/
opaque drawH : Nat → Vector Word 8

/-- `draw u32`, shown as `T0`. -/
opaque drawT0 : Nat → Word

/-- `draw u32`, shown as `T1`. -/
opaque drawT1 : Nat → Word

/-- `draw bytes × k`: byte `j` of them. -/
opaque drawByte : Nat → Nat → Byte

end Config

end Sys2Proof
end

