-- ==== Sys2Proof/Machine/Port.lean ====
section
/-! DEFINITION. What crosses the boundary between host and block: the chain view (43_retarget.md R181), operand tuples,
commands and results (30_encoding.md R70, R73, R74), and the host's two actions (a command, a power-on reset: R251). -/

namespace Sys2Proof.Machine

/-- One entry of the host's chain: `height()` int32, `blockTime()` int64, `difficultyEncoding()` u32, `previous()`, and
the answers of `ancestorAtHeight` as a list of height and entry (R181). References number the entries of the view. -/
structure Entry where
  height : BitVec 32
  time : BitVec 64
  bits : Word
  prev : Option Nat
  ancestors : List (Int × Nat)
  deriving DecidableEq, Repr

/-- A ChainIndexView as plain data: what it answers during one command (R64, R181), log 12. -/
structure View where
  entries : List Entry
  deriving DecidableEq, Repr

/-- One operand of a tuple, typed as R73 types it. -/
inductive Operand where
  | bytes (bs : List Byte)
  | u32 (x : Word)
  | u256 (x : Target)
  | i32 (x : BitVec 32)
  | i64 (x : BitVec 64)
  | entry (ref : Option Nat)
  deriving DecidableEq, Repr

/-- A command transaction (R70): the word, the operand tuple, and the view the host supplies with it (R181; only DR.NEXT
reads it). -/
structure Command where
  word : Word
  operands : List Operand
  view : View
  deriving DecidableEq, Repr

/-- What the host does to an instance: it issues a command (R70) or power-cycles the block (R251). -/
inductive HostAction where
  | command (c : Command)
  | powerOn
  deriving DecidableEq, Repr

/-- The tuple HE.STATE returns (R74, R125). -/
structure Snapshot where
  status : Word
  h : Vector Word 8
  t0 : Word
  t1 : Word
  buf : List Byte
  deriving DecidableEq, Repr

/-- Result tuples (R74). -/
inductive Result where
  /-- completion only: HE.RESET, HE.WRITEB, HE.WRITE -/
  | done
  /-- HE.FINAL -/
  | digest (d : List Byte)
  /-- HE.STATE -/
  | snapshot (x : Snapshot)
  /-- TC.DECODE -/
  | target (d : Decoded)
  /-- TC.ENCODE, DR.RETARGET, DR.NEXT -/
  | compact (c : Word)
  /-- POW.CHECK -/
  | verdict (ok : Bool)
  deriving DecidableEq, Repr

/-- What the result port shows when a command is over: its result tuple (R74), a fault indication without one (R222), or
that the latched block refused it (R224). -/
inductive Completion where
  | result (r : Result)
  | faulted
  | refused
  deriving DecidableEq, Repr

end Sys2Proof.Machine
end

