-- ==== Sys2Proof/Machine/Tables.lean ====
section
/-! DEFINITION. The configuration of the instance that `State.reset` describes: the candidate tables of
40_hash_engine.md R115 (PRESUMED, log 2), the values R8 decides (log 4), and the OPEN consensus parameters (log 3). -/

namespace Sys2Proof.Machine

/-- Candidate `IV` (R115). -/
def candidateIV : Vector Word 8 :=
  #v[0x6A09E667#32, 0xBB67AE85#32, 0x3C6EF372#32, 0xA54FF53A#32,
     0x510E527F#32, 0x9B05688C#32, 0x1F83D9AB#32, 0x5BE0CD19#32]

/-- Candidate `CONST` (R115). -/
def candidateConst : Vector Word 16 :=
  #v[0x243F6A88#32, 0x85A308D3#32, 0x13198A2E#32, 0x03707344#32,
     0xA4093822#32, 0x299F31D0#32, 0x082EFA98#32, 0xEC4E6C89#32,
     0x452821E6#32, 0x38D01377#32, 0xBE5466CF#32, 0x34E90C6C#32,
     0xC0AC29B7#32, 0xC97C50DD#32, 0x3F84D5B5#32, 0xB5470917#32]

/-! The ten rows `S[0]` to `S[9]` of R115. -/

def sigmaRow0 : Vector (Fin 16) 16 := #v[0, 1, 2, 3, 4, 5, 6, 7, 8, 9, 10, 11, 12, 13, 14, 15]
def sigmaRow1 : Vector (Fin 16) 16 := #v[14, 10, 4, 8, 9, 15, 13, 6, 1, 12, 0, 2, 11, 7, 5, 3]
def sigmaRow2 : Vector (Fin 16) 16 := #v[11, 8, 12, 0, 5, 2, 15, 13, 10, 14, 3, 6, 7, 1, 9, 4]
def sigmaRow3 : Vector (Fin 16) 16 := #v[7, 9, 3, 1, 13, 12, 11, 14, 2, 6, 5, 10, 4, 0, 15, 8]
def sigmaRow4 : Vector (Fin 16) 16 := #v[9, 0, 5, 7, 2, 4, 10, 15, 14, 1, 11, 12, 6, 8, 3, 13]
def sigmaRow5 : Vector (Fin 16) 16 := #v[2, 12, 6, 10, 0, 11, 8, 3, 4, 13, 7, 5, 15, 14, 1, 9]
def sigmaRow6 : Vector (Fin 16) 16 := #v[12, 5, 1, 15, 14, 13, 4, 10, 0, 7, 6, 3, 9, 2, 8, 11]
def sigmaRow7 : Vector (Fin 16) 16 := #v[13, 11, 7, 14, 12, 1, 3, 9, 5, 0, 15, 4, 8, 6, 2, 10]
def sigmaRow8 : Vector (Fin 16) 16 := #v[6, 15, 14, 9, 11, 3, 0, 8, 12, 2, 13, 7, 1, 4, 10, 5]
def sigmaRow9 : Vector (Fin 16) 16 := #v[10, 2, 8, 4, 7, 6, 1, 5, 15, 11, 9, 14, 3, 12, 13, 0]

/-- Candidate `SIGMA`: row `r` is `S[r mod 10]` (R115). -/
def candidateSigma : Vector (Vector (Fin 16) 16) 14 :=
  #v[sigmaRow0, sigmaRow1, sigmaRow2, sigmaRow3, sigmaRow4, sigmaRow5, sigmaRow6, sigmaRow7,
     sigmaRow8, sigmaRow9, sigmaRow0, sigmaRow1, sigmaRow2, sigmaRow3]

/-- An unknown `POW_LIMIT` in the range R254 allows, `0 < POW_LIMIT < 2^256` (D24, log 3). -/
def openPowLimit : Target := if Config.powLimitSeed = 0#256 then 1#256 else Config.powLimitSeed

/-- The configuration of `State.reset`: R8's value where R8 has one, R115's candidate tables, and constants without a
body for the OPEN consensus parameters. -/
def instanceParams : Params where
  nrounds := 14
  iv := candidateIV
  consts := candidateConst
  sigma := candidateSigma
  profile := .doc
  carryRule := .zero
  padStop := 0x01#8
  padMark := 0x80#8
  padMerged := 0x81#8
  powLimit := openPowLimit
  interval := 20
  spacing := 180
  timespan := 3600
  heightThreshold := 3500
  allowMinDifficulty := Config.allowMinDifficulty
  noRetargeting := Config.noRetargeting
  codec := .reference
  productWidth := .w256
  heightSource := .tip

end Sys2Proof.Machine
end

