-- ==== Sys2Proof/Machine/State.lean ====
section
/-! DEFINITION. The state of one block instance (10_state.md R20 to R33) as plain data, its reset value
(70_reset_and_hazards.md R250), and the reasons for which a step stops. -/

namespace Sys2Proof.Machine

/-- `PHASE` (R25). -/
inductive Phase where
  | ready
  | finalized
  deriving DecidableEq, Repr

/-- The HashEngine's registers (R20 to R25). -/
structure Engine where
  /-- `H[0..7]` (R21) -/
  h : Vector Word 8
  /-- `T0`, the low counter word (R22) -/
  t0 : Word
  /-- `T1`, the high counter word (R22) -/
  t1 : Word
  /-- `BUF`, the bytes absorbed since the last compression (R23) -/
  buf : List Byte
  /-- `F`, the final-block flag (R24) -/
  f : Bool
  /-- `PHASE` (R25) -/
  phase : Phase
  deriving DecidableEq, Repr

/-- The fault causes of 60_exceptions.md R221, in the order of their codes 0x00 to 0x08. -/
inductive Cause where
  | none
  | illegalOpcode
  | reservedNonzero
  | operandMismatch
  | useAfterFinalize
  | operandRange
  | missingTip
  | missingAncestor
  | chainInconsistent
  deriving DecidableEq, Repr

/-- `INFO`, the record `(opcode, detail)` of R26. -/
structure Info where
  opcode : Byte
  detail : Int
  deriving DecidableEq, Repr

/-- One block instance with its host interface. -/
structure State where
  /-- The configuration and ROM tables of R29 and R31, fixed at instantiation; no step writes them (log 1). -/
  cfg : Params
  /-- The HashEngine (R20). -/
  engine : Engine
  /-- `FAULT`, the sticky latch (R26, R224). -/
  fault : Bool
  /-- `CAUSE` (R26, R221). -/
  cause : Cause
  /-- `INFO` (R26, R221). -/
  info : Info
  /-- The model's own: the host actions not yet taken, the next one first (log 6). -/
  pending : List HostAction
  /-- The model's own: what the result port last showed (log 6). -/
  result : Option Completion
  /-- The model's own: how many times free values have been drawn (R14 `draw`; log 8). -/
  draws : Nat
  deriving DecidableEq, Repr

/-- Reasons for which a step stops with a fault: there are none. Every fault of the spec is an effect the spec describes
(60_exceptions.md R222), and the model takes it as a next state. -/
inductive Fault where
  deriving DecidableEq, Repr

/-- Reasons for which a step is refused. -/
inductive Refusal where
  /-- `exec` would answer it for a command without a meaning; no arm does. Safe. -/
  | notModelled (mnemonic : String)
  /-- `step` answers it when the host has issued no action: the block has no step of its own (70_reset_and_hazards.md
  R252 "The first command the host issues is the first step"). Safe. -/
  | noCommand
  deriving DecidableEq, Repr

/-- Power-on of an instance with configuration `p`: every row of R250, the host interface idle (log 6). -/
def State.powerOn (p : Params) : State where
  cfg := p
  engine := ⟨p.iv, 0#32, 0#32, [], false, .ready⟩
  fault := false
  cause := .none
  info := ⟨0#8, 0⟩
  pending := []
  result := Option.none
  draws := 0

/-- The machine right after power-on reset (R250), with the configuration of Machine/Tables.lean. -/
def State.reset : State := State.powerOn instanceParams

end Sys2Proof.Machine
end

