-- ==== Sys2Proof/Machine/Compression.lean ====
section
/-! DEFINITION. The compression function (40_hash_engine.md R110 to R114), in both profiles (R140). -/

namespace Sys2Proof.Machine

/-- `rotr32` for `0 < n < 32` (00_scope.md R11). -/
def rotr32 (x : Word) (n : Nat) : Word := (x >>> n) ||| (x <<< (32 - n))

/-- `Gmix` (R112). -/
def gmix (v : Vector Word 16) (a b c d : Fin 16) (x1 x2 k1 k2 : Word) : Vector Word 16 :=
  let v := v.set a (v[a] + v[b] + (x1 ^^^ k1))
  let v := v.set d (rotr32 (v[d] ^^^ v[a]) 16)
  let v := v.set c (v[c] + v[d])
  let v := v.set b (rotr32 (v[b] ^^^ v[c]) 12)
  let v := v.set a (v[a] + v[b] + (x2 ^^^ k2))
  let v := v.set d (rotr32 (v[d] ^^^ v[a]) 8)
  let v := v.set c (v[c] + v[d])
  v.set b (rotr32 (v[b] ^^^ v[c]) 7)

/-- A mixing group: four working-array positions and two positions of the permutation table (R113). -/
structure Group where
  a : Fin 16
  b : Fin 16
  c : Fin 16
  d : Fin 16
  px : Fin 16
  py : Fin 16
  deriving DecidableEq, Repr

/-- The eight groups in the order of R113: four columns, four diagonals. -/
def groups : List Group :=
  [⟨0, 4, 8, 12, 0, 1⟩, ⟨1, 5, 9, 13, 2, 3⟩, ⟨2, 6, 10, 14, 4, 5⟩, ⟨3, 7, 11, 15, 6, 7⟩,
   ⟨3, 4, 9, 14, 14, 15⟩, ⟨2, 7, 8, 13, 12, 13⟩, ⟨0, 5, 10, 15, 8, 9⟩, ⟨1, 6, 11, 12, 10, 11⟩]

/-- One group's call of `Gmix` in a round with permutation row `row` (R111). -/
def mixGroup (p : Params) (m : Vector Word 16) (row : Vector (Fin 16) 16) (v : Vector Word 16) (g : Group) :
    Vector Word 16 :=
  gmix v g.a g.b g.c g.d m[row[g.px]] m[row[g.py]] p.consts[row[g.py]] p.consts[row[g.px]]

/-- One round: the eight calls in order (R111). -/
def mixRound (p : Params) (m : Vector Word 16) (v : Vector Word 16) (row : Vector (Fin 16) 16) : Vector Word 16 :=
  groups.foldl (mixGroup p m row) v

/-- Message word `i` of a block: little-endian in DOC (20_memory.md R51), big-endian in BLAKE256 (R140). -/
def messageWord (p : Params) (block : List Byte) (i : Nat) : Word :=
  match p.profile with
  | .doc => le32 (blockByte block (4 * i)) (blockByte block (4 * i + 1)) (blockByte block (4 * i + 2))
      (blockByte block (4 * i + 3))
  | .blake256 => be32 (blockByte block (4 * i)) (blockByte block (4 * i + 1)) (blockByte block (4 * i + 2))
      (blockByte block (4 * i + 3))

/-- The sixteen message words. -/
def messageWords (p : Params) (block : List Byte) : Vector Word 16 := Vector.ofFn (fun i => messageWord p block i)

/-- Words 12 to 15 of the working array before the rounds: in DOC the counter goes into 12 and 13 and `F` inverts 14
(R110); in BLAKE256 the counter goes into all four unless `F` is set (R140). -/
def counterWords (p : Params) (t0 t1 : Word) (f : Bool) : Vector Word 4 :=
  match p.profile with
  | .doc => #v[p.iv[4] ^^^ t0, p.iv[5] ^^^ t1, if f then ~~~p.iv[6] else p.iv[6], p.iv[7]]
  | .blake256 =>
    if f then #v[p.consts[4], p.consts[5], p.consts[6], p.consts[7]]
    else #v[p.consts[4] ^^^ t0, p.consts[5] ^^^ t0, p.consts[6] ^^^ t1, p.consts[7] ^^^ t1]

/-- Words 8 to 11 of the working array: `IV[0..3]` in DOC (R110), `CONST[0..3]` in BLAKE256 (R140). -/
def fixedWords (p : Params) : Vector Word 4 :=
  match p.profile with
  | .doc => #v[p.iv[0], p.iv[1], p.iv[2], p.iv[3]]
  | .blake256 => #v[p.consts[0], p.consts[1], p.consts[2], p.consts[3]]

/-- The working array `V[0..15]` before the rounds (R110). -/
def workingArray (p : Params) (h : Vector Word 8) (t0 t1 : Word) (f : Bool) : Vector Word 16 :=
  let x := fixedWords p
  let y := counterWords p t0 t1 f
  #v[h[0], h[1], h[2], h[3], h[4], h[5], h[6], h[7], x[0], x[1], x[2], x[3], y[0], y[1], y[2], y[3]]

/-- All rounds: `NROUNDS` of them, round `r` with row `r` of `SIGMA` (R111, R114). -/
def mixAll (p : Params) (m : Vector Word 16) (v : Vector Word 16) : Vector Word 16 :=
  (p.sigma.toList.take p.nrounds).foldl (mixRound p m) v

/-- `H[i] ^ V[i] ^ V[i+8]` (R111). -/
def foldChaining (h : Vector Word 8) (v : Vector Word 16) : Vector Word 8 :=
  #v[h[0] ^^^ v[0] ^^^ v[8], h[1] ^^^ v[1] ^^^ v[9], h[2] ^^^ v[2] ^^^ v[10], h[3] ^^^ v[3] ^^^ v[11],
     h[4] ^^^ v[4] ^^^ v[12], h[5] ^^^ v[5] ^^^ v[13], h[6] ^^^ v[6] ^^^ v[14], h[7] ^^^ v[7] ^^^ v[15]]

/-- `compress(block)` as a function: the new chaining value (R110, R111). -/
def compress (p : Params) (h : Vector Word 8) (t0 t1 : Word) (f : Bool) (block : List Byte) : Vector Word 8 :=
  foldChaining h (mixAll p (messageWords p block) (workingArray p h t0 t1 f))

end Sys2Proof.Machine
end

