-- ==== Sys2Proof/Machine/Flags.lean ====
section
/-! DEFINITION. Flags and flag-like values (10_state.md R26, R28): cause codes, STATUS, and the conditions of a decode. -/

namespace Sys2Proof.Machine

/-- The code `CAUSE` holds for a cause (60_exceptions.md R221). -/
def causeCode : Cause → Byte
  | .none => 0x00#8
  | .illegalOpcode => 0x01#8
  | .reservedNonzero => 0x02#8
  | .operandMismatch => 0x03#8
  | .useAfterFinalize => 0x04#8
  | .operandRange => 0x05#8
  | .missingTip => 0x06#8
  | .missingAncestor => 0x07#8
  | .chainInconsistent => 0x08#8

/-- The layout of STATUS (R28), bit 31 first: reserved, FAULT, CAUSE, reserved, FINALIZED, FINAL, FILL. -/
def packStatus (fault : Bool) (cause : Byte) (finalized : Bool) (final : BitVec 1) (fill : BitVec 6) : Word :=
  0#7 ++ BitVec.ofBool fault ++ cause ++ 0#8 ++ BitVec.ofBool finalized ++ final ++ fill

/-- FINALIZED (R28). -/
def Engine.finalizedBit (e : Engine) : Bool := e.phase == .finalized

/-- STATUS of a block in phase READY (R28, R125). -/
def State.statusWord (s : State) : Word :=
  packStatus s.fault (causeCode s.cause) s.engine.finalizedBit (BitVec.ofBool s.engine.f)
    (BitVec.ofNat 6 s.engine.buf.length)

/-- `NEG` of a decode: the sign flag over a nonzero mantissa (41_target_codec.md R150). -/
def negCondition (word : Nat) (sign : Bool) : Bool := word != 0 && sign

/-- `OVF` of a decode (R150). -/
def ovfCondition (word size : Nat) : Bool :=
  word != 0 && (34 < size || (0xFF < word && 33 < size) || (0xFFFF < word && 32 < size))

end Sys2Proof.Machine
end

