-- ==== Sys2Proof/Machine/ChainView.lean ====
section
/-! DEFINITION. The queries of the ChainIndexView (43_retarget.md R181). A reference that the view does not resolve is
no entry of it, so a query whose answer it would be answers NONE (log 11). -/

namespace Sys2Proof.Machine

/-- The entry a reference names. -/
def View.entry (v : View) (r : Nat) : Option Entry := v.entries[r]?

/-- `View.height(e)`, int32. -/
def Entry.heightInt (e : Entry) : Int := e.height.toInt

/-- `View.time(e)`, int64. -/
def Entry.timeInt (e : Entry) : Int := e.time.toInt

/-- `View.prev(e)`. -/
def View.prev (v : View) (e : Entry) : Option Entry := e.prev.bind v.entry

/-- `View.ancestor(e, h)`. -/
def View.ancestor (v : View) (e : Entry) (h : Int) : Option Entry :=
  (e.ancestors.find? (fun a => a.1 == h)).bind (fun a => v.entry a.2)

end Sys2Proof.Machine
end

