-- ==== Sys2Proof/Syntax.lean ====
section
/-! DEFINITION. The commands of 30_encoding.md R75, one constructor per row. A constructor carries what the command WORD
carries beside its opcode (R71, R72); the operand tuple (R73) travels on the operand port (Machine/Port.lean). -/

namespace Sys2Proof

inductive Instr where
  /-- HE.RESET (R101) -/
  | heReset
  /-- HE.WRITEB with `DATA` (R102) -/
  | heWriteb (data : Byte)
  /-- HE.WRITE with the byte count `N` (R103) -/
  | heWrite (n : BitVec 16)
  /-- HE.FINAL (R120) -/
  | heFinal
  /-- HE.STATE (R125) -/
  | heState
  /-- TC.DECODE (R150) -/
  | tcDecode
  /-- TC.ENCODE (R155) -/
  | tcEncode
  /-- POW.CHECK (R170) -/
  | powCheck
  /-- DR.RETARGET (R185) -/
  | drRetarget
  /-- DR.NEXT (R190) -/
  | drNext
  deriving DecidableEq, Repr

end Sys2Proof
end

