-- ==== Sys2Proof/Decode.lean ====
section
/-! DEFINITION. The command word (30_encoding.md R71 to R78): a total decoder that rejects by name, and the encoder. -/

namespace Sys2Proof

/-- Why a word is no command (R77). -/
inductive DecodeFault where
  /-- `OPC` is not in the map of R75. -/
  | illegalOpcode
  /-- `RSV`, or an `IMM16` bit the format requires to be 0, is nonzero. -/
  | reservedNonzero
  deriving DecidableEq, Repr

/-- `OPC`, bits 31:24 (R71). -/
def opcField (w : Word) : Byte := w.extractLsb' 24 8

/-- `RSV`, bits 23:16 (R71). -/
def rsvField (w : Word) : Byte := w.extractLsb' 16 8

/-- `IMM16`, bits 15:0 (R71). -/
def imm16Field (w : Word) : BitVec 16 := w.extractLsb' 0 16

/-- `word[23:0]`, the detail a RESERVED_NONZERO fault records (60_exceptions.md R221). -/
def lowField (w : Word) : BitVec 24 := w.extractLsb' 0 24

/-- Format CMD0: all of bits 23:0 are reserved (R71, R77). -/
def decodeCmd0 (w : Word) (i : Instr) : Except DecodeFault Instr :=
  if rsvField w ≠ 0#8 then .error .reservedNonzero
  else if imm16Field w ≠ 0#16 then .error .reservedNonzero
  else .ok i

/-- Format CMDB: `DATA = IMM16[7:0]`, `IMM16[15:8]` reserved (R71, R72, R77). -/
def decodeCmdB (w : Word) (i : Byte → Instr) : Except DecodeFault Instr :=
  if rsvField w ≠ 0#8 then .error .reservedNonzero
  else if (imm16Field w).extractLsb' 8 8 ≠ 0#8 then .error .reservedNonzero
  else .ok (i ((imm16Field w).extractLsb' 0 8))

/-- Format CMDN: `N = zext_16(IMM16)` (R71, R72, R77). -/
def decodeCmdN (w : Word) (i : BitVec 16 → Instr) : Except DecodeFault Instr :=
  if rsvField w ≠ 0#8 then .error .reservedNonzero else .ok (i (imm16Field w))

/-- The decoder: the opcode map of R75 and the order of checks of R77. -/
def decode (w : Word) : Except DecodeFault Instr :=
  match (opcField w).toNat with
  | 0x01 => decodeCmd0 w .heReset
  | 0x02 => decodeCmdB w .heWriteb
  | 0x03 => decodeCmdN w .heWrite
  | 0x04 => decodeCmd0 w .heFinal
  | 0x05 => decodeCmd0 w .heState
  | 0x10 => decodeCmd0 w .tcDecode
  | 0x11 => decodeCmd0 w .tcEncode
  | 0x20 => decodeCmd0 w .powCheck
  | 0x30 => decodeCmd0 w .drRetarget
  | 0x31 => decodeCmd0 w .drNext
  | _ => .error .illegalOpcode

/-- The opcode of each command (R75). -/
def opcode : Instr → Byte
  | .heReset => 0x01#8
  | .heWriteb _ => 0x02#8
  | .heWrite _ => 0x03#8
  | .heFinal => 0x04#8
  | .heState => 0x05#8
  | .tcDecode => 0x10#8
  | .tcEncode => 0x11#8
  | .powCheck => 0x20#8
  | .drRetarget => 0x30#8
  | .drNext => 0x31#8

/-- `IMM16` of each command (R71). -/
def immediate : Instr → BitVec 16
  | .heWriteb d => 0x00#8 ++ d
  | .heWrite n => n
  | .heReset => 0#16
  | .heFinal => 0#16
  | .heState => 0#16
  | .tcDecode => 0#16
  | .tcEncode => 0#16
  | .powCheck => 0#16
  | .drRetarget => 0#16
  | .drNext => 0#16

/-- The encoder (R71, R75, R76). -/
def encode (i : Instr) : Word := opcode i ++ 0x00#8 ++ immediate i

/-- One row of the opcode map: a word selects it when `(w & mask) == match` (R75). -/
structure OpcodeRow where
  mnemonic : String
  pattern : Word
  mask : Word
  deriving DecidableEq, Repr

/-- The opcode map as R75 prints it. -/
def opcodeRows : List OpcodeRow :=
  [⟨"HE.RESET", 0x01000000#32, 0xFFFFFFFF#32⟩,
   ⟨"HE.WRITEB", 0x02000000#32, 0xFFFFFF00#32⟩,
   ⟨"HE.WRITE", 0x03000000#32, 0xFFFF0000#32⟩,
   ⟨"HE.FINAL", 0x04000000#32, 0xFFFFFFFF#32⟩,
   ⟨"HE.STATE", 0x05000000#32, 0xFFFFFFFF#32⟩] ++
  [⟨"TC.DECODE", 0x10000000#32, 0xFFFFFFFF#32⟩,
   ⟨"TC.ENCODE", 0x11000000#32, 0xFFFFFFFF#32⟩,
   ⟨"POW.CHECK", 0x20000000#32, 0xFFFFFFFF#32⟩,
   ⟨"DR.RETARGET", 0x30000000#32, 0xFFFFFFFF#32⟩,
   ⟨"DR.NEXT", 0x31000000#32, 0xFFFFFFFF#32⟩]

/-- `(w & mask) == match` (R75). -/
def OpcodeRow.selects (r : OpcodeRow) (w : Word) : Bool := w &&& r.mask == r.pattern

/-- The mnemonic of a command (R75). -/
def mnemonic : Instr → String
  | .heReset => "HE.RESET"
  | .heWriteb _ => "HE.WRITEB"
  | .heWrite _ => "HE.WRITE"
  | .heFinal => "HE.FINAL"
  | .heState => "HE.STATE"
  | .tcDecode => "TC.DECODE"
  | .tcEncode => "TC.ENCODE"
  | .powCheck => "POW.CHECK"
  | .drRetarget => "DR.RETARGET"
  | .drNext => "DR.NEXT"

/-- A command word off a byte-wide link, least significant byte first (R71, D44): what the decoder makes of it and the
bytes left over; `none` while fewer than four bytes have come. -/
def decodeLink : List Byte → Option (Except DecodeFault Instr × List Byte)
  | b0 :: b1 :: b2 :: b3 :: rest => some (decode (Machine.le32 b0 b1 b2 b3), rest)
  | _ => none

/-- A command word as a byte-wide link carries it: `bytesLE32(word)` (R71, D44). -/
def encodeLink (i : Instr) : List Byte := Machine.bytesLE32 (encode i)

/-- The decoder's answer on an opcode-table word of `nbits` bits, laid out as the link carries it. -/
def decodeTableWord (nbits w : Nat) : Option Instr :=
  match decodeLink (Machine.bytesLE32 (BitVec.ofNat 32 (w % 2 ^ nbits))) with
  | some (.ok i, _) => some i
  | _ => none

end Sys2Proof
end

