-- ==== Sys2Proof/WellFormed.lean ====
section
/-! DEFINITION. Checks on what is handed to the block. A term of `Instr` carries exactly the fields of its command word,
so each is well formed by its type; what can be ill formed is a configuration (70_reset_and_hazards.md R254), a command
transaction (30_encoding.md R73) and a host's view (43_retarget.md R181). -/

namespace Sys2Proof

/-- R114: each row of `SIGMA` is a permutation of 0..15: every index stands in it, so with sixteen places each stands
once. -/
abbrev Params.SigmaPermutes (p : Params) : Prop :=
  p.sigma.toList.all (fun row => (List.finRange 16).all (fun x => row.toList.contains x)) = true

/-- R254 item 3: `0 < POW_LIMIT` (the upper bound is the type's). -/
abbrev Params.PowLimitPositive (p : Params) : Prop := p.powLimit ≠ 0#256

/-- R114: `SIGMA` has 14 rows, so at most 14 rounds can be configured (log 17). -/
abbrev Params.RoundsHaveRows (p : Params) : Prop := p.nrounds ≤ 14

/-- R9: `TIMESPAN = INTERVAL × SPACING`. -/
abbrev Params.TimespanRelation (p : Params) : Prop := p.timespan = p.interval * p.spacing

/-- DESIGN CHOICE (log 27): neither R8 nor R9 nor R254 says that `INTERVAL = 0` or `SPACING ≤ 0` is refused; the model
refuses them. -/
abbrev Params.TimesPositive (p : Params) : Prop := 0 < p.interval ∧ 0 < p.spacing

/-- R8: `SPACING` and `TIMESPAN` are int64. -/
abbrev Params.TimesFitInt64 (p : Params) : Prop :=
  (-2 ^ 63 ≤ p.spacing ∧ p.spacing < 2 ^ 63) ∧ (-2 ^ 63 ≤ p.timespan ∧ p.timespan < 2 ^ 63)

/-- A configuration the integrator can instantiate: what R254, R114, R9 and the types of R8 ask, and logs 17 and 27. -/
abbrev Params.Valid (p : Params) : Prop :=
  p.SigmaPermutes ∧ p.PowLimitPositive ∧ p.RoundsHaveRows ∧ p.TimespanRelation ∧ p.TimesPositive ∧
    p.TimesFitInt64

/-- The values R8 takes from the source for the retarget rules. -/
abbrev Params.SourceTimes (p : Params) : Prop :=
  p.interval = 20 ∧ p.spacing = 180 ∧ p.timespan = 3600 ∧ p.heightThreshold = 3500

namespace Machine

/-- Duty 2 of R181 for one entry: its previous entry is one lower. -/
abbrev Entry.PrevIsOneLower (v : View) (e : Entry) : Prop :=
  ∀ r ∈ e.prev, ∀ q ∈ v.entries[r]?, q.height.toInt = e.height.toInt - 1

/-- Duty 3 of R181 for one entry, as far as it is checked: an ancestor answered for height `h` has height `h`. -/
abbrev Entry.AncestorsAtHeight (v : View) (e : Entry) : Prop :=
  ∀ a ∈ e.ancestors, ∀ q ∈ v.entries[a.2]?, q.height.toInt = a.1

/-- Duty 4 of R181 for one entry: its time lies in `[0, 2^32)`. -/
abbrev Entry.TimeFitsHeader (e : Entry) : Prop := 0 ≤ e.time.toInt ∧ e.time.toInt < 2 ^ 32

/-- References are entries of the view. -/
abbrev Entry.Resolves (v : View) (e : Entry) : Prop :=
  (∀ r ∈ e.prev, r < v.entries.length) ∧ ∀ a ∈ e.ancestors, a.2 < v.entries.length

/-- A view that keeps the duties of R181 a model can state. No meaning assumes it. -/
abbrev View.Honest (v : View) : Prop :=
  ∀ e ∈ v.entries, e.PrevIsOneLower v ∧ e.AncestorsAtHeight v ∧ e.TimeFitsHeader ∧ e.Resolves v

/-- The kinds of operand of R73; `bytes n` is a BYTES or HASH operand of exactly `n` bytes. -/
inductive OperandKind where
  | bytes (n : Nat)
  | u32
  | u256
  | i32
  | i64
  | entry
  deriving DecidableEq, Repr

/-- The operand tuple each command takes (R73). -/
def tupleShape : Instr → List OperandKind
  | .heReset => []
  | .heWriteb _ => []
  | .heWrite n => [.bytes n.toNat]
  | .heFinal => []
  | .heState => []
  | .tcDecode => [.u32]
  | .tcEncode => [.u256]
  | .powCheck => [.bytes 32, .u32]
  | .drRetarget => [.u32, .i64, .i32]
  | .drNext => [.entry, .i64]

/-- Whether an operand is of a kind. -/
def Operand.fits : Operand → OperandKind → Bool
  | .bytes bs, .bytes n => bs.length == n
  | .u32 _, .u32 => true
  | .u256 _, .u256 => true
  | .i32 _, .i32 => true
  | .i64 _, .i64 => true
  | .entry _, .entry => true
  | _, _ => false

/-- Whether a tuple has a shape: as many operands, each of its kind (R73). -/
def tupleFits : List OperandKind → List Operand → Bool
  | [], [] => true
  | k :: ks, o :: os => o.fits k && tupleFits ks os
  | _, _ => false

/-- A transaction whose word decodes and whose operand tuple has the command's shape. -/
def Command.wellFormed (c : Command) : Bool :=
  match decode c.word with
  | .ok i => tupleFits (tupleShape i) c.operands
  | .error _ => false

end Machine

end Sys2Proof
end

