-- ==== Sys2Proof/Machine/Operands.lean ====
section
/-! DEFINITION. Operand tuples: what each command reads from the operand port (30_encoding.md R73), and their byte form
where the port carries bytes. -/

namespace Sys2Proof.Machine

/-! ## Reading a tuple; `none` is the wrong shape -/

/-- The empty tuple: HE.RESET, HE.WRITEB, HE.FINAL, HE.STATE. -/
def noOperands : List Operand → Option Unit
  | [] => some ()
  | _ => none

/-- `BYTES` of HE.WRITE, of exactly `n` bytes; an empty tuple carries no bytes (log 10). -/
def bytesOperand (n : Nat) : List Operand → Option (List Byte)
  | [] => if n = 0 then some [] else none
  | [.bytes bs] => if bs.length = n then some bs else none
  | _ => none

/-- `COMPACT` of TC.DECODE. -/
def compactOperand : List Operand → Option Word
  | [.u32 c] => some c
  | _ => none

/-- `TARGET` of TC.ENCODE. -/
def targetOperand : List Operand → Option Target
  | [.u256 t] => some t
  | _ => none

/-- `HASH` (32 bytes) and `COMPACT` of POW.CHECK. -/
def hashCompactOperands : List Operand → Option (List Byte × Word)
  | [.bytes d, .u32 c] => if d.length = 32 then some (d, c) else none
  | _ => none

/-- `OLD`, `SPAN`, `HEIGHT` of DR.RETARGET. -/
def retargetOperands : List Operand → Option (Word × Int × Int)
  | [.u32 old, .i64 span, .i32 height] => some (old, span.toInt, height.toInt)
  | _ => none

/-- `TIP` and `CANDTIME` of DR.NEXT; a reference that is no entry of the view is no TIP operand (log 11). -/
def nextOperands (v : View) : List Operand → Option (Option Entry × Int)
  | [.entry none, .i64 t] => some (none, t.toInt)
  | [.entry (some r), .i64 t] => (v.entry r).map (fun e => (some e, t.toInt))
  | _ => none

/-- The detail of HE.WRITE's OPERAND_MISMATCH: the number of bytes received (60_exceptions.md R221; log 10). -/
def bytesReceived : List Operand → Nat
  | [] => 0
  | .bytes bs :: rest => bs.length + bytesReceived rest
  | _ :: rest => bytesReceived rest

/-! ## The byte form of a tuple (R73) -/

/-- An operand as bytes; an entry reference is opaque and has none. -/
def operandBytes : Operand → Option (List Byte)
  | .bytes bs => some bs
  | .u32 x => some (leBytes 4 x.toNat)
  | .u256 x => some (leBytes 32 x.toNat)
  | .i32 x => some (leBytes 4 x.toNat)
  | .i64 x => some (leBytes 8 x.toNat)
  | .entry _ => none

/-- A tuple as bytes, operands in order. -/
def tupleBytes : List Operand → Option (List Byte)
  | [] => some []
  | o :: os => (operandBytes o).bind (fun b => (tupleBytes os).map (fun bs => b ++ bs))

/-- How many bytes an operand of a kind takes. -/
def kindWidth : OperandKind → Option Nat
  | .bytes n => some n
  | .u32 => some 4
  | .u256 => some 32
  | .i32 => some 4
  | .i64 => some 8
  | .entry => none

/-- The operand of a kind that some bytes carry. -/
def operandOf (k : OperandKind) (bs : List Byte) : Option Operand :=
  match k with
  | .bytes _ => some (.bytes bs)
  | .u32 => some (.u32 (BitVec.ofNat 32 (leNat bs)))
  | .u256 => some (.u256 (BitVec.ofNat 256 (leNat bs)))
  | .i32 => some (.i32 (BitVec.ofNat 32 (leNat bs)))
  | .i64 => some (.i64 (BitVec.ofNat 64 (leNat bs)))
  | .entry => none

/-- A tuple of a shape off a byte port; `none` unless the bytes are exactly as many as the shape takes. -/
def readTuple : List OperandKind → List Byte → Option (List Operand)
  | [], [] => some []
  | [], _ :: _ => none
  | k :: ks, bs =>
    (kindWidth k).bind fun n =>
      if n ≤ bs.length then
        (operandOf k (bs.take n)).bind fun o => (readTuple ks (bs.drop n)).map (fun os => o :: os)
      else none

/-! ## The byte form of a result (R74; log 24) -/

/-- A bool is one byte, 0x00 or 0x01 (R74). -/
def boolByte (b : Bool) : Byte := if b then 0x01#8 else 0x00#8

/-- A result tuple as bytes, its parts in the order R74 lists them. -/
def resultBytes : Result → List Byte
  | .done => []
  | .digest d => d
  | .snapshot x =>
    leBytes 4 x.status.toNat ++ x.h.toList.flatMap (fun w => leBytes 4 w.toNat) ++ leBytes 4 x.t0.toNat ++
      leBytes 4 x.t1.toNat ++ x.buf
  | .target d => leBytes 32 d.value.toNat ++ [boolByte d.neg, boolByte d.ovf]
  | .compact c => leBytes 4 c.toNat
  | .verdict ok => [boolByte ok]

end Sys2Proof.Machine
end

