-- ==== Sys2Proof/Machine/Ops.lean ====
section
/-! DEFINITION. The operations every command shares: reading its transaction, ending it (with a result, a fault or a
refusal), and power-on reset. A fault and a refusal are effects the spec describes, so all of them are states. -/

namespace Sys2Proof.Machine

/-- The operand tuple of the command being executed (R70); none where no command is pending. -/
def State.operands (s : State) : List Operand :=
  match s.pending with
  | .command c :: _ => c.operands
  | _ => []

/-- The view the host supplied with the command being executed (R181). -/
def State.view (s : State) : View :=
  match s.pending with
  | .command c :: _ => c.view
  | _ => ⟨[]⟩

/-- The command is over: the host's next action is next (R61), and the result port shows `c` (R70). -/
def State.complete (s : State) (c : Completion) : State :=
  { s with pending := s.pending.tail, result := some c }

/-- A command completes with its result tuple (R74). -/
def State.done (s : State) (r : Result) : State := s.complete (.result r)

/-- The latched block refuses a command: it neither executes it nor records a second fault (60_exceptions.md R224;
log 7). -/
def State.refuse (s : State) : State := s.complete .refused

/-- `raise Fault(cause, (opc, detail))` (60_exceptions.md R222): taking a fault. -/
def State.raise (s : State) (cause : Cause) (opc : Byte) (detail : Int) : State :=
  { s with fault := true, cause := cause, info := ⟨opc, detail⟩ }.complete .faulted

/-- The head of every command but HE.STATE, in the order of 60_exceptions.md R225: the latch, then the operand tuple
(`none` is the wrong shape, `received` the detail it records), then the command itself. -/
def State.serve {α : Type} (s : State) (opc : Byte) (operands : Option α) (received : Nat) (run : α → State) :
    Host.Outcome State Fault Refusal :=
  .next
    (if s.fault then s.refuse
     else
       match operands with
       | none => s.raise .operandMismatch opc received
       | some a => run a)

/-- The cause of a word that is no command (30_encoding.md R77). -/
def decodeCause : DecodeFault → Cause
  | .illegalOpcode => .illegalOpcode
  | .reservedNonzero => .reservedNonzero

/-- The detail a word that is no command records (60_exceptions.md R221). -/
def decodeDetail (w : Word) : DecodeFault → Int
  | .illegalOpcode => 0
  | .reservedNonzero => (lowField w).toNat

/-- A word that is no command: the latch, then the decode fault (R77, R225). -/
def State.rejectWord (s : State) (w : Word) (d : DecodeFault) : State :=
  if s.fault then s.refuse else s.raise (decodeCause d) (opcField w) (decodeDetail w d)

/-- Power-on reset of an instance (70_reset_and_hazards.md R250, R251): every row of R250, the configuration as
instantiated. What the host has yet to issue and the count of free values are outside the block and stay (log 19). -/
def State.powerCycle (s : State) : State :=
  { State.powerOn s.cfg with pending := s.pending.tail, draws := s.draws }

/-- Instantiation (R254): a configuration that breaks R114, R9 or the range of `POW_LIMIT` gives no instance. -/
def instantiate (p : Params) : Option State := if p.Valid then some (State.powerOn p) else none

end Sys2Proof.Machine
end

