-- ==== Sys2Proof/Machine/HashEngine.lean ====
section
/-! DEFINITION. The HashEngine: absorption and the counter (40_hash_engine.md R106, R107), finalization (R120), and the
five HE commands (R101 to R103, R120, R125). -/

namespace Sys2Proof.Machine

/-! ## Absorption -/

/-- Whether the low counter word, now `new` after adding 512 to `old`, carries (R107). -/
def counterCarries (p : Params) (old new : Word) : Bool :=
  match p.carryRule with
  | .zero => new == 0#32
  | .overflow => decide (2 ^ 32 ≤ old.toNat + 512)

/-- `advanceCounter()` (R107). -/
def advanceCounter (p : Params) (e : Engine) : Engine :=
  let new := e.t0 + 512#32
  { e with t0 := new, t1 := if counterCarries p e.t0 new then e.t1 + 1#32 else e.t1 }

/-- The full buffer is compressed with the counter advanced past it, and emptied (R106). -/
def compressBuffer (p : Params) (e : Engine) : Engine :=
  let e := advanceCounter p e
  { e with h := compress p e.h e.t0 e.t1 e.f e.buf, buf := [] }

/-- `absorb(b)` (R106). -/
def absorb (p : Params) (e : Engine) (b : Byte) : Engine :=
  let e := { e with buf := e.buf ++ [b] }
  if e.buf.length = 64 then compressBuffer p e else e

/-- `absorb` of each byte in order (R103). -/
def absorbAll (p : Params) (e : Engine) (bs : List Byte) : Engine := bs.foldl (absorb p) e

/-! ## Finalization -/

/-- `k` bytes of 0x00. -/
def zeros (k : Nat) : List Byte := List.replicate k 0x00#8

/-- `PAD_STOP`: the parameter in DOC, 0x80 in BLAKE256 (R8, R140; log 16). -/
def stopByte (p : Params) : Byte :=
  match p.profile with
  | .doc => p.padStop
  | .blake256 => 0x80#8

/-- `PAD_MARK`: the parameter in DOC, 0x01 in BLAKE256 (R8, R140; log 16). -/
def markByte (p : Params) : Byte :=
  match p.profile with
  | .doc => p.padMark
  | .blake256 => 0x01#8

/-- `T0 <- T0 -32 n`, without a borrow into `T1` (R11, R120). -/
def lowerCounter (n : Nat) (e : Engine) : Engine := { e with t0 := e.t0 - BitVec.ofNat 32 n }

/-- `F <- true` (R120). -/
def setFinal (e : Engine) : Engine := { e with f := true }

/-- `LEN64`: the message's bits, taken at the entry of HE.FINAL (R120). -/
def messageBits (e : Engine) : Word64 := (e.t1 ++ e.t0) + BitVec.ofNat 64 (8 * e.buf.length)

/-- The 8 length bytes: `bytesBE32(LENHI) || bytesBE32(LENLO)` (R120). -/
def lengthBytes (n : Word64) : List Byte := bytesBE32 (n.extractLsb' 32 32) ++ bytesBE32 (n.extractLsb' 0 32)

/-- Fill length 55: the merged stop and marker byte (R120). -/
def padMergedTail (p : Params) (e : Engine) : Engine := absorb p (lowerCounter 8 e) p.padMerged

/-- The marker at buffer index 55, the end of both other branches (R120). -/
def padMarker (p : Params) (e : Engine) : Engine := absorb p (lowerCounter 8 e) (markByte p)

/-- Fill length `b < 55`: stop byte, then zeros until 55 bytes are held (R120). -/
def padShortTail (p : Params) (e : Engine) : Engine :=
  let b := e.buf.length
  let e := if b = 0 then setFinal e else e
  let e := absorb p (lowerCounter (440 - 8 * b) e) (stopByte p)
  padMarker p (absorbAll p e (zeros (55 - e.buf.length)))

/-- Zeros that are absorbed until the buffer is empty again (R120 `while len(BUF) != 0`). -/
def zerosToEmpty (e : Engine) : List Byte := if e.buf.length = 0 then [] else zeros (64 - e.buf.length)

/-- Fill length 56 to 63: the block fills and is compressed, then 55 zeros with `F` set (R120). -/
def padLongTail (p : Params) (e : Engine) : Engine :=
  let e := absorb p (lowerCounter (512 - 8 * e.buf.length) e) (stopByte p)
  let e := absorbAll p e (zerosToEmpty e)
  let e := setFinal (lowerCounter 440 e)
  padMarker p (absorbAll p e (zeros 55))

/-- The padding before the length, by fill length (R120, R122). -/
def padTail (p : Params) (e : Engine) : Engine :=
  if e.buf.length = 55 then padMergedTail p e
  else if e.buf.length < 55 then padShortTail p e
  else padLongTail p e

/-- HE.FINAL's effect on the engine (R120); what the registers hold afterwards is given no meaning (R124; log 9). -/
def finalize (p : Params) (e : Engine) : Engine :=
  { absorbAll p (lowerCounter 64 (padTail p e)) (lengthBytes (messageBits e)) with phase := .finalized }

/-- The digest: the chaining words, each most significant byte first (R121, 20_memory.md R53). -/
def digestBytes (h : Vector Word 8) : List Byte := h.toList.flatMap bytesBE32

/-! ## The commands -/

/-- The canonical initial state of the engine (R101). -/
def initialEngine (p : Params) : Engine := ⟨p.iv, 0#32, 0#32, [], false, .ready⟩

/-- The phase check of HE.WRITEB, HE.WRITE and HE.FINAL (60_exceptions.md R223), then their effect. -/
def State.inReady (s : State) (opc : Byte) (next : Engine) (r : Result) : State :=
  match s.engine.phase with
  | .finalized => s.raise .useAfterFinalize opc 0
  | .ready => { s with engine := next }.done r

/-- HE.RESET (R101). -/
def execHeReset (s : State) : Host.Outcome State Fault Refusal :=
  s.serve 0x01#8 (noOperands s.operands) s.operands.length fun _ =>
    { s with engine := initialEngine s.cfg }.done .done

/-- HE.WRITEB (R102). -/
def execHeWriteb (data : Byte) (s : State) : Host.Outcome State Fault Refusal :=
  s.serve 0x02#8 (noOperands s.operands) s.operands.length fun _ =>
    s.inReady 0x02#8 (absorb s.cfg s.engine data) .done

/-- HE.WRITE (R103): the length check, then the phase, then one `absorb` per byte. -/
def execHeWrite (n : BitVec 16) (s : State) : Host.Outcome State Fault Refusal :=
  s.serve 0x03#8 (bytesOperand n.toNat s.operands) (bytesReceived s.operands) fun bs =>
    s.inReady 0x03#8 (absorbAll s.cfg s.engine bs) .done

/-- HE.FINAL (R120, R121). -/
def execHeFinal (s : State) : Host.Outcome State Fault Refusal :=
  s.serve 0x04#8 (noOperands s.operands) s.operands.length fun _ =>
    let e := finalize s.cfg s.engine
    s.inReady 0x04#8 e (.digest (digestBytes e.h))

/-- The snapshot of a block in phase READY (R125). -/
def State.snapshot (s : State) : Snapshot :=
  ⟨s.statusWord, s.engine.h, s.engine.t0, s.engine.t1, s.engine.buf⟩

/-- The snapshot of a block in phase FINALIZED (R125): only FINALIZED and the fault fields are determined, and draw
number `n` of each free value stands for the rest (log 8). -/
def State.drawnSnapshot (s : State) (n : Nat) : Snapshot where
  status := packStatus s.fault (causeCode s.cause) s.engine.finalizedBit (Config.drawFinal n) (Config.drawFill n)
  h := Config.drawH n
  t0 := Config.drawT0 n
  t1 := Config.drawT1 n
  buf := (List.range (Config.drawFill n).toNat).map (Config.drawByte n)

/-- HE.STATE's effect (R125): it changes nothing of the block; the draw counter is the model's. -/
def State.observe (s : State) : State :=
  match s.engine.phase with
  | .ready => s.done (.snapshot s.snapshot)
  | .finalized => { s with draws := s.draws + 1 }.done (.snapshot (s.drawnSnapshot s.draws))

/-- HE.STATE (R125): it executes while the latch is set (60_exceptions.md R224), but only with the empty tuple (log 15). -/
def execHeState (s : State) : Host.Outcome State Fault Refusal :=
  match noOperands s.operands with
  | some _ => .next s.observe
  | none => s.serve 0x05#8 (noOperands s.operands) s.operands.length fun _ => s.observe

end Sys2Proof.Machine
end

