-- ==== Sys2Proof/Machine/TargetCodec.lean ====
section
/-! DEFINITION. The TargetCodec (41_target_codec.md): the reference `DECODE` and `ENCODE`, the configured ones, and
TC.DECODE and TC.ENCODE. -/

namespace Sys2Proof.Machine

/-- The mantissa after the shift of the `size ≤ 3` branch (R150). -/
def mantissa (size word : Nat) : Nat := if size ≤ 3 then word / 2 ^ (8 * (3 - size)) else word

/-- The target a shifted mantissa stands for (R150). -/
def scaledValue (size word : Nat) : Nat := if size ≤ 3 then word else word * 2 ^ (8 * (size - 3)) % 2 ^ 256

/-- The reference `DECODE` (R150). -/
def referenceDecode (c : Word) : Decoded :=
  let size := (c.extractLsb' 24 8).toNat
  let word := mantissa size (c.extractLsb' 0 23).toNat
  ⟨BitVec.ofNat 256 (scaledValue size word), negCondition word (c.getLsbD 23), ovfCondition word size⟩

/-- Bit length: 0 for 0, else 1 and the index of the top set bit (R155). -/
def bitLength (n : Nat) : Nat := if n = 0 then 0 else Nat.log2 n + 1

/-- The target's size in bytes, 0 to 32 (R155). -/
def byteSize (t : Nat) : Nat := (bitLength t + 7) / 8

/-- The top three significant bytes of the target (R155 `c` before the adjustment). -/
def topBytes (t : Nat) : Nat :=
  if byteSize t ≤ 3 then t % 2 ^ 64 * 2 ^ (8 * (3 - byteSize t)) else t / 2 ^ (8 * (byteSize t - 3)) % 2 ^ 64

/-- The mantissa and exponent after the adjustment that keeps the sign flag clear (R155). -/
def adjusted (c size : Nat) : Nat × Nat := if c.testBit 23 then (c / 2 ^ 8, size + 1) else (c, size)

/-- The reference `ENCODE` (R155). -/
def referenceEncode (t : Target) : Word :=
  let r := adjusted (topBytes t.toNat) (byteSize t.toNat)
  BitVec.ofNat 32 (r.1 ||| r.2 * 2 ^ 24)

/-! ## Codecs other than the reference one: any functions that meet R149 (D23; log 5) -/

/-- `DECODE` of codec number `k`. The compact value is read by its fields, exponent `c[31:24]` and mantissa `c[23:0]`
(R149 item 1); the target has no more bytes than the exponent says (item 2); `NEG` needs the sign flag `c[23]`. -/
def otherDecode (k : Nat) (c : Word) : Decoded :=
  let size := c.extractLsb' 24 8
  let word := c.extractLsb' 0 24
  ⟨BitVec.ofNat 256 ((Config.otherValue k size word).toNat % 2 ^ (8 * size.toNat)),
   word.getLsbD 23 && Config.otherNeg k size word, Config.otherOvf k size word⟩

/-- The exponent codec number `k` gives a target: its length in bytes (R149 item 2), the byte its sign takes included
where the codec counts it, as the reference codec does. -/
def otherExponent (k : Nat) (t : Target) : Nat :=
  if t ≠ 0#256 ∧ bitLength t.toNat % 8 = 0 ∧ Config.otherSignByte k t then byteSize t.toNat + 1 else byteSize t.toNat

/-- `ENCODE` of codec number `k`: exponent and mantissa in their places (R149 items 1, 2 and 5). -/
def otherEncode (k : Nat) (t : Target) : Word := BitVec.ofNat 8 (otherExponent k t) ++ Config.otherMantissa k t

/-- The configured `DECODE` (D23; log 5). -/
def decodeTarget (p : Params) (c : Word) : Decoded :=
  match p.codec with
  | .reference => referenceDecode c
  | .other k => otherDecode k c

/-- The configured `ENCODE` (D23; log 5). -/
def encodeTarget (p : Params) (t : Target) : Word :=
  match p.codec with
  | .reference => referenceEncode t
  | .other k => otherEncode k t

/-- TC.DECODE (R150). -/
def execTcDecode (s : State) : Host.Outcome State Fault Refusal :=
  s.serve 0x10#8 (compactOperand s.operands) s.operands.length fun c => s.done (.target (decodeTarget s.cfg c))

/-- TC.ENCODE (R155). -/
def execTcEncode (s : State) : Host.Outcome State Fault Refusal :=
  s.serve 0x11#8 (targetOperand s.operands) s.operands.length fun t => s.done (.compact (encodeTarget s.cfg t))

end Sys2Proof.Machine
end

