-- ==== Sys2Proof/Machine/PowValidator.lean ====
section
/-! DEFINITION. The ProofOfWorkValidator (42_pow_validator.md): POW.CHECK. -/

namespace Sys2Proof.Machine

/-- Whether a digest meets the target a compact value encodes (R170). -/
def meetsTarget (p : Params) (digest : List Byte) (c : Word) : Bool :=
  let d := decodeTarget p c
  if d.neg || d.ovf || d.value == 0#256 || decide (p.powLimit < d.value) then false
  else decide (leNat digest ≤ d.value.toNat)

/-- POW.CHECK (R170). -/
def execPowCheck (s : State) : Host.Outcome State Fault Refusal :=
  s.serve 0x20#8 (hashCompactOperands s.operands) s.operands.length fun x =>
    s.done (.verdict (meetsTarget s.cfg x.1 x.2))

end Sys2Proof.Machine
end

