-- ==== Sys2Proof/Machine/Retargeter.lean ====
section
/-! DEFINITION. The DifficultyRetargeter (43_retarget.md): the clamp, DR.RETARGET, the walk and DR.NEXT. -/

namespace Sys2Proof.Machine

/-- The first two clamps of R182, mutually exclusive and tried in this order. -/
def clampLow (p : Params) (a h : Int) : Int :=
  if a < p.timespan.tdiv 4 ∧ p.heightThreshold ≤ h then (p.timespan * 100).tdiv 103
  else if a < (p.timespan * 100).tdiv 115 ∧ h < p.heightThreshold then (p.timespan * 100).tdiv 115
  else a

/-- `clamp(A, h)` (R182): the third clamp always runs. -/
def clamp (p : Params) (a h : Int) : Int :=
  if p.timespan * 2 < clampLow p a h then p.timespan * 2 else clampLow p a h

/-- The product of the old target and the timespan (R185, R187): modulo 2^256, or exact. -/
def retargetProduct (p : Params) (t : Target) (a : Int) : Nat :=
  match p.productWidth with
  | .w256 => (t * BitVec.ofInt 256 a).toNat
  | .unbounded => t.toNat * a.toNat

/-- The new target before it is encoded: truncating division, then the limit (R185). -/
def retargetValue (p : Params) (t : Target) (a : Int) : Nat :=
  min (retargetProduct p t a / p.timespan.toNat) p.powLimit.toNat

/-- DR.RETARGET's result (R185, R186). -/
def retarget (p : Params) (old : Word) (span height : Int) : Word :=
  if p.noRetargeting then old
  else encodeTarget p (BitVec.ofNat 256 (retargetValue p (decodeTarget p old).value (clamp p span height)))

/-- Whether an exact integer lies in the int64 range (R193). -/
def inInt64 (x : Int) : Bool := decide (-2 ^ 63 ≤ x ∧ x < 2 ^ 63)

/-- The cause and detail of a fault of DR.NEXT; its opcode is 0x31 (60_exceptions.md R221). -/
abbrev ChainFault := Cause × Int

/-- The skip condition of the walk: the previous entry of an entry that has one, is no boundary block and carries the
minimum-difficulty encoding (R191). -/
def skipTo (p : Params) (v : View) (e : Entry) : Option Entry :=
  if e.heightInt % p.interval ≠ 0 ∧ e.bits = encodeTarget p p.powLimit then v.prev e else none

/-- `walk(e)` (R191) with at most `fuel` steps; `walkFuel` is always enough. -/
def walk (p : Params) (v : View) : Nat → Entry → Except ChainFault Word
  | 0, e => .ok e.bits
  | fuel + 1, e =>
    match skipTo p v e with
    | none => .ok e.bits
    | some q =>
      if q.heightInt ≠ e.heightInt - 1 then .error (.chainInconsistent, q.heightInt) else walk p v fuel q

/-- The most steps a walk can take: `height mod INTERVAL`, since every step lowers the height by one and the walk stops
at a multiple of `INTERVAL` (R191). -/
def walkFuel (p : Params) (e : Entry) : Nat := (e.heightInt % p.interval).toNat

/-- DR.NEXT at a block that is no boundary (R190, R193). -/
def nextInside (p : Params) (v : View) (tip : Entry) (candTime : Int) : Except ChainFault Word :=
  if p.allowMinDifficulty then
    let limit := tip.timeInt + 2 * p.spacing
    if !inInt64 limit then .error (.operandRange, limit)
    else if limit < candTime then .ok (encodeTarget p p.powLimit)
    else walk p v (walkFuel p tip) tip
  else .ok tip.bits

/-- The height DR.RETARGET receives at a boundary (R194). -/
def retargetHeight (p : Params) (h : Int) : Int :=
  match p.heightSource with
  | .tip => h
  | .next => h + 1

/-- DR.NEXT at a boundary block (R190, R192 to R194). -/
def nextBoundary (p : Params) (v : View) (tip : Entry) : Except ChainFault Word :=
  let ha := tip.heightInt - (p.interval - 1)
  match v.ancestor tip ha with
  | none => .error (.missingAncestor, ha)
  | some anc =>
    if anc.heightInt ≠ ha then .error (.chainInconsistent, anc.heightInt)
    else
      let span := tip.timeInt - anc.timeInt
      if !inInt64 span then .error (.operandRange, span)
      else .ok (retarget p tip.bits span (retargetHeight p tip.heightInt))

/-- DR.NEXT's result or fault (R190), its checks in the order of 60_exceptions.md R225. -/
def nextDifficulty (p : Params) (v : View) (tip : Option Entry) (candTime : Int) : Except ChainFault Word :=
  match tip with
  | none => .error (.missingTip, 0)
  | some e =>
    if e.heightInt < 0 ∨ e.heightInt = 2 ^ 31 - 1 then .error (.operandRange, e.heightInt)
    else if (e.heightInt + 1) % p.interval ≠ 0 then nextInside p v e candTime
    else nextBoundary p v e

/-- DR.RETARGET (R185). -/
def execDrRetarget (s : State) : Host.Outcome State Fault Refusal :=
  s.serve 0x30#8 (retargetOperands s.operands) s.operands.length fun x =>
    s.done (.compact (retarget s.cfg x.1 x.2.1 x.2.2))

/-- DR.NEXT ends with its result or its fault (R190, R222). -/
def State.endNext (s : State) : Except ChainFault Word → State
  | .ok c => s.done (.compact c)
  | .error f => s.raise f.1 0x31#8 f.2

/-- DR.NEXT (R190). -/
def execDrNext (s : State) : Host.Outcome State Fault Refusal :=
  s.serve 0x31#8 (nextOperands s.view s.operands) s.operands.length fun x =>
    s.endNext (nextDifficulty s.cfg s.view x.1 x.2)

end Sys2Proof.Machine
end

