-- ==== Sys2Proof/Machine/Dispatch.lean ====
section
/-! DEFINITION. One arm per command of 30_encoding.md R75, each a call of its meaning. -/

namespace Sys2Proof.Machine

def exec (i : Instr) (s : State) : Host.Outcome State Fault Refusal :=
  match i with
  | .heReset => Sys2Proof.Machine.execHeReset s
  | .heWriteb data => Sys2Proof.Machine.execHeWriteb data s
  | .heWrite n => Sys2Proof.Machine.execHeWrite n s
  | .heFinal => Sys2Proof.Machine.execHeFinal s
  | .heState => Sys2Proof.Machine.execHeState s
  | .tcDecode => Sys2Proof.Machine.execTcDecode s
  | .tcEncode => Sys2Proof.Machine.execTcEncode s
  | .powCheck => Sys2Proof.Machine.execPowCheck s
  | .drRetarget => Sys2Proof.Machine.execDrRetarget s
  | .drNext => Sys2Proof.Machine.execDrNext s

end Sys2Proof.Machine
end

