-- ==== Sys2Proof/Machine/Fetch.lean ====
section
/-! DEFINITION. The transactions `State.withFetchWord` issues: an opcode-table word with an operand tuple of zeros
(log 6). -/

namespace Sys2Proof.Machine

/-- The operand tuple of a command's shape (30_encoding.md R73) in which every value is zero; the entry reference is
entry 0. -/
def zeroOperands : Instr → List Operand
  | .heReset => []
  | .heWriteb _ => []
  | .heWrite n => [.bytes (List.replicate n.toNat 0x00#8)]
  | .heFinal => []
  | .heState => []
  | .tcDecode => [.u32 0#32]
  | .tcEncode => [.u256 0#256]
  | .powCheck => [.bytes (List.replicate 32 0x00#8), .u32 0#32]
  | .drRetarget => [.u32 0#32, .i64 0#64, .i32 0#32]
  | .drNext => [.entry (some 0), .i64 0#64]

/-- A view of one entry of zeros, without a previous entry. -/
def zeroView : View := ⟨[⟨0#32, 0#64, 0#32, none, []⟩]⟩

/-- The transaction of a word of `nbits` bits with an operand tuple of zeros. -/
def zeroCommand (nbits w : Nat) : Command :=
  { word := BitVec.ofNat 32 (w % 2 ^ nbits)
    operands :=
      match decodeTableWord nbits w with
      | some i => zeroOperands i
      | none => []
    view := zeroView }

end Sys2Proof.Machine
end

