-- ==== Sys2Proof/Machine/Step.lean ====
section
/-! DEFINITION. One step: the host's next action (30_encoding.md R70, 20_memory.md R61, 70_reset_and_hazards.md R251). -/

namespace Sys2Proof.Machine

/-- One step. A command word that does not decode takes its fault (R77); without an action the block has no step. -/
def step (s : State) : Host.Outcome State Fault Refusal :=
  match s.pending with
  | [] => .refused .noCommand
  | .powerOn :: _ => .next s.powerCycle
  | .command c :: _ =>
    match decode c.word with
    | .ok i => exec i s
    | .error d => .next (s.rejectWord c.word d)

/-- `s` with a command word of `nbits` bits issued as the host's next action (log 6). -/
def State.withFetchWord (s : State) (nbits w : Nat) : State :=
  { s with pending := .command (zeroCommand nbits w) :: s.pending }

end Sys2Proof.Machine
end

