-- ==== Sys2Proof/Machine/Assembler.lean ====
section
/-! DEFINITION. The host's assembler (30_encoding.md R79 to R84): command lines and pseudo-instructions as the
transactions they issue, and the text of a line. The block itself sees only the transactions (log 21). -/

namespace Sys2Proof.Machine

/-- One assembly line (R79 to R84). A tip is the height of `@h`, or none. -/
inductive AsmLine where
  | heReset
  | heWriteb (b : Nat)
  | heWrite (n : Nat) (bs : List Byte)
  | heFinal
  | heState
  | tcDecode (c : Nat)
  | tcEncode (t : Nat)
  | powCheck (d : List Byte) (c : Nat)
  | drRetarget (old : Nat) (span height : Int)
  | drNext (tip : Option Nat) (time : Int)
  | hash (bs : List Byte)
  | hash80 (hdr : List Byte)
  | heWrites (bs : List Byte)
  | hashChk (bs : List Byte)
  | powHeader (hdr : List Byte)
  deriving DecidableEq, Repr

/-- What a line expands to: the commands to issue, and for `pow.header` the compact value with which POW.CHECK is then
issued on the digest that HE.FINAL returned (R84). -/
structure Expansion where
  commands : List Command
  thenCheck : Option Word
  deriving DecidableEq, Repr

/-- A command with its operands over a view. -/
def issueOf (v : View) (i : Instr) (operands : List Operand) : Command := ⟨encode i, operands, v⟩

/-- One `he.write` of at most 65535 bytes (R79). -/
def writeCommand (v : View) (bs : List Byte) : Command :=
  issueOf v (.heWrite (BitVec.ofNat 16 bs.length)) [.bytes bs]

/-- The chunks of `he.writes`: as many as needed, none for no bytes (R80, R82). Where they split is open below 65535 bytes
a chunk; every chunk but the last is full (DESIGN CHOICE, log 28). -/
def writeChunks : Nat → List Byte → List (List Byte)
  | 0, _ => []
  | fuel + 1, bs => if bs.isEmpty then [] else bs.take 65535 :: writeChunks fuel (bs.drop 65535)

/-- `he.writes` (R82). -/
def writesCommands (v : View) (bs : List Byte) : List Command := (writeChunks bs.length bs).map (writeCommand v)

/-- `hash` (R80). -/
def hashCommands (v : View) (bs : List Byte) : List Command :=
  issueOf v .heReset [] :: (writesCommands v bs ++ [issueOf v .heFinal []])

/-- The compact value at bytes 72 to 75 of a header (R84, 20_memory.md R55). -/
def headerBits (hdr : List Byte) : Word :=
  le32 (blockByte hdr 72) (blockByte hdr 73) (blockByte hdr 74) (blockByte hdr 75)

/-- The first entry of the view at height `h`: what `@h` stands for (R79; log 21). -/
def View.refAtHeight (v : View) (h : Nat) : Option Nat := v.entries.findIdx? (fun e => e.height.toInt == (h : Int))

/-- The `TIP` operand of a `dr.next` line. -/
def tipOperand (v : View) : Option Nat → Option Operand
  | none => some (.entry none)
  | some h => (v.refAtHeight h).map (fun r => .entry (some r))

/-- A number that a field of `w` bits holds. -/
def natField (w x : Nat) : Option (BitVec w) := if x < 2 ^ w then some (BitVec.ofNat w x) else none

/-- A signed number that a field of `w` bits holds in two's complement. -/
def intField (w : Nat) (x : Int) : Option (BitVec w) :=
  if -2 ^ (w - 1) ≤ x ∧ x < 2 ^ (w - 1) then some (BitVec.ofInt w x) else none

/-- Commands and nothing to check. -/
def commandsOnly (cs : List Command) : Expansion := ⟨cs, none⟩

/-- What a line issues over the host's view; `none` where the assembler refuses the line: a byte list of the wrong
length (R79, R81), a value its field does not hold, an entry the view lacks (log 21). -/
def assemble (v : View) : AsmLine → Option Expansion
  | .heReset => some (commandsOnly [issueOf v .heReset []])
  | .heWriteb b => (natField 8 b).map fun x => commandsOnly [issueOf v (.heWriteb x) []]
  | .heWrite n bs =>
    if bs.length = n then (natField 16 n).map fun x => commandsOnly [issueOf v (.heWrite x) [.bytes bs]] else none
  | .heFinal => some (commandsOnly [issueOf v .heFinal []])
  | .heState => some (commandsOnly [issueOf v .heState []])
  | .tcDecode c => (natField 32 c).map fun x => commandsOnly [issueOf v .tcDecode [.u32 x]]
  | .tcEncode t => (natField 256 t).map fun x => commandsOnly [issueOf v .tcEncode [.u256 x]]
  | .powCheck d c =>
    if d.length = 32 then (natField 32 c).map fun x => commandsOnly [issueOf v .powCheck [.bytes d, .u32 x]] else none
  | .drRetarget old span height =>
    (natField 32 old).bind fun o => (intField 64 span).bind fun a => (intField 32 height).map fun h =>
      commandsOnly [issueOf v .drRetarget [.u32 o, .i64 a, .i32 h]]
  | .drNext tip time =>
    (tipOperand v tip).bind fun t => (intField 64 time).map fun x => commandsOnly [issueOf v .drNext [t, .i64 x]]
  | .hash bs => some (commandsOnly (hashCommands v bs))
  | .hash80 hdr => if hdr.length = 80 then some (commandsOnly (hashCommands v hdr)) else none
  | .heWrites bs => some (commandsOnly (writesCommands v bs))
  | .hashChk bs => some (commandsOnly (hashCommands v bs ++ [issueOf v .heReset []]))
  | .powHeader hdr => if hdr.length = 80 then some ⟨hashCommands v hdr, some (headerBits hdr)⟩ else none

/-! ## The text of a line (R79) -/

/-- A token: a run of letters, digits and points; a quoted text; or one other mark. -/
inductive Token where
  | word (cs : List Char)
  | text (cs : List Char)
  | mark (c : Char)
  deriving DecidableEq, Repr

/-- Where the lexer stands, with what it has read of a token, last character first. -/
inductive LexMode where
  | between
  | inWord (read : List Char)
  | inText (read : List Char)
  deriving DecidableEq, Repr

/-- The quotation mark. -/
def quoteChar : Char := Char.ofNat 34

/-- Letters, digits and the point. -/
def isWordChar (c : Char) : Bool := c.isAlphanum || c == '.'

/-- The marks of the syntax. -/
def isMark (c : Char) : Bool := c == ',' || c == '[' || c == ']' || c == '(' || c == ')' || c == '@' || c == '-'

/-- The tokens of a character outside a token, and the mode after it; `none` for a character the syntax lacks. -/
def startToken (c : Char) : Option (List Token × LexMode) :=
  if c.isWhitespace then some ([], .between)
  else if c == quoteChar then some ([], .inText [])
  else if isWordChar c then some ([], .inWord [c])
  else if isMark c then some ([.mark c], .between)
  else none

/-- The tokens of a line; a semicolon outside a quoted text starts a comment. -/
def lex : LexMode → List Char → Option (List Token)
  | .between, [] => some []
  | .inWord read, [] => some [.word read.reverse]
  | .inText _, [] => none
  | .inText read, c :: cs =>
    if c == quoteChar then (lex .between cs).map (fun ts => .text read.reverse :: ts) else lex (.inText (c :: read)) cs
  | .inWord read, c :: cs =>
    if isWordChar c then lex (.inWord (c :: read)) cs
    else if c == ';' then some [.word read.reverse]
    else (startToken c).bind fun r => (lex r.2 cs).map (fun ts => .word read.reverse :: (r.1 ++ ts))
  | .between, c :: cs =>
    if c == ';' then some [] else (startToken c).bind fun r => (lex r.2 cs).map (fun ts => r.1 ++ ts)

/-- The value of a digit, hexadecimal ones included. -/
def digitValue (c : Char) : Option Nat :=
  if '0' ≤ c ∧ c ≤ '9' then some (c.toNat - 48)
  else if 'a' ≤ c ∧ c ≤ 'f' then some (c.toNat - 87)
  else if 'A' ≤ c ∧ c ≤ 'F' then some (c.toNat - 55)
  else none

/-- Digits in a base, most significant first. -/
def digitsValue (base : Nat) : Nat → List Char → Option Nat
  | acc, [] => some acc
  | acc, c :: cs => (digitValue c).bind fun d => if d < base then digitsValue base (acc * base + d) cs else none

/-- A number: decimal, or hexadecimal after `0x` (R79). -/
def numberOf : List Char → Option Nat
  | [] => none
  | '0' :: 'x' :: [] => none
  | '0' :: 'x' :: cs => digitsValue 16 0 cs
  | cs => digitsValue 10 0 cs

/-- A byte of a byte list. -/
def byteOf (cs : List Char) : Option Byte := (numberOf cs).bind (natField 8)

/-- The bytes of a quoted text: its ASCII codes, no terminator (R79); other characters are refused (log 21). -/
def asciiBytes : List Char → Option (List Byte)
  | [] => some []
  | c :: cs => if c.toNat < 128 then (asciiBytes cs).map (fun bs => BitVec.ofNat 8 c.toNat :: bs) else none

/-- The items of a bracketed byte list after its bracket, and what follows it. -/
def bracketItems : List Token → Option (List Byte × List Token)
  | .word cs :: .mark ']' :: rest => (byteOf cs).map (fun b => ([b], rest))
  | .word cs :: .mark ',' :: rest =>
    (byteOf cs).bind fun b => (bracketItems rest).map (fun r => (b :: r.1, r.2))
  | _ => none

/-- A byte list (R79): bracketed, quoted, or `zeros(k)`; and what follows it. -/
def byteList : List Token → Option (List Byte × List Token)
  | .text cs :: rest => (asciiBytes cs).map (fun bs => (bs, rest))
  | .mark '[' :: .mark ']' :: rest => some ([], rest)
  | .mark '[' :: rest => bracketItems rest
  | .word ['z', 'e', 'r', 'o', 's'] :: .mark '(' :: .word k :: .mark ')' :: rest =>
    (numberOf k).map (fun n => (List.replicate n 0x00#8, rest))
  | _ => none

/-- A byte list that ends the line. -/
def lastByteList (ts : List Token) : Option (List Byte) :=
  match byteList ts with
  | some (bs, []) => some bs
  | _ => none

/-- A signed number, and what follows it. -/
def signedNumber : List Token → Option (Int × List Token)
  | .mark '-' :: .word cs :: rest => (numberOf cs).map (fun n => (-(n : Int), rest))
  | .word cs :: rest => (numberOf cs).map (fun n => ((n : Int), rest))
  | _ => none

/-- The operands of `pow.check`. -/
def powCheckLine (ts : List Token) : Option AsmLine :=
  match byteList ts with
  | some (d, [.mark ',', .word c]) => (numberOf c).map (.powCheck d)
  | _ => none

/-- The operands of `dr.retarget`. -/
def drRetargetLine (ts : List Token) : Option AsmLine :=
  match ts with
  | .word old :: .mark ',' :: rest =>
    match signedNumber rest with
    | some (span, .mark ',' :: rest) =>
      match signedNumber rest with
      | some (height, []) => (numberOf old).map (fun o => .drRetarget o span height)
      | _ => none
    | _ => none
  | _ => none

/-- The candidate time of `dr.next`, which ends the line. -/
def drNextLine (tip : Option Nat) (ts : List Token) : Option AsmLine :=
  match signedNumber ts with
  | some (t, []) => some (.drNext tip t)
  | _ => none

/-- A line by its mnemonic (R79 to R84). Any number may be decimal, the 256-bit value of `tc.encode` too, which R79 writes
as a hex integer (DESIGN CHOICE, log 21). -/
def parseLine (name : List Char) (ts : List Token) : Option AsmLine :=
  if name = "he.reset".toList ∧ ts = [] then some .heReset
  else if name = "he.final".toList ∧ ts = [] then some .heFinal
  else if name = "he.state".toList ∧ ts = [] then some .heState
  else if name = "he.writeb".toList then
    match ts with
    | [.word b] => (numberOf b).map .heWriteb
    | _ => none
  else if name = "he.write".toList then
    match ts with
    | .word n :: .mark ',' :: rest => (numberOf n).bind fun k => (lastByteList rest).map (.heWrite k)
    | _ => none
  else if name = "tc.decode".toList then
    match ts with
    | [.word c] => (numberOf c).map .tcDecode
    | _ => none
  else if name = "tc.encode".toList then
    match ts with
    | [.word t] => (numberOf t).map .tcEncode
    | _ => none
  else if name = "pow.check".toList then powCheckLine ts
  else if name = "dr.retarget".toList then drRetargetLine ts
  else if name = "dr.next".toList then
    match ts with
    | .word ['n', 'o', 'n', 'e'] :: .mark ',' :: rest => drNextLine none rest
    | .mark '@' :: .word h :: .mark ',' :: rest => (numberOf h).bind fun k => drNextLine (some k) rest
    | _ => none
  else if name = "hash".toList then (lastByteList ts).map .hash
  else if name = "hash80".toList then (lastByteList ts).map .hash80
  else if name = "he.writes".toList then (lastByteList ts).map .heWrites
  else if name = "hash.chk".toList then (lastByteList ts).map .hashChk
  else if name = "pow.header".toList then (lastByteList ts).map .powHeader
  else none

/-- The line a text holds; `none` where the assembler refuses it, and for a text without a command (blank, or a comment
alone), of which R79 says nothing: it issues nothing (DESIGN CHOICE, log 21). -/
def parseText (cs : List Char) : Option AsmLine :=
  match lex .between cs with
  | some (.word name :: ts) => parseLine name ts
  | _ => none

end Sys2Proof.Machine
end

