-- ==== Sys2Proof/Machine/System.lean ====
section
/-! DEFINITION. The host at work: issuing command sequences to one instance (30_encoding.md R70, R80 to R84), and a
system of several instances (10_state.md R33, 20_memory.md R63; log 20). -/

namespace Sys2Proof.Machine

/-- One action issued to an instance and taken at once. -/
def issue (a : HostAction) (s : State) : Host.Outcome State Fault Refusal := step { s with pending := [a] }

/-- Commands issued one after another; it ends early where a step gives no next state. -/
def issueAll : List Command → State → Host.Outcome State Fault Refusal
  | [], s => .next s
  | c :: cs, s =>
    match issue (.command c) s with
    | .next t => issueAll cs t
    | .fault r => .fault r
    | .refused r => .refused r

/-- The POW.CHECK that `pow.header` issues on a digest (R84). -/
def checkCommand (digest : List Byte) (c : Word) : Command := issueOf ⟨[]⟩ .powCheck [.bytes digest, .u32 c]

/-- An assembled line issued to an instance; `pow.header` then has POW.CHECK decide on the digest just returned,
unchanged (R84, 42_pow_validator.md R171). Where HE.FINAL returned no digest, as in a latched block, R84 says nothing of the
POW.CHECK: none is issued (DESIGN CHOICE, log 29). -/
def runExpansion (x : Expansion) (s : State) : Host.Outcome State Fault Refusal :=
  match issueAll x.commands s, x.thenCheck with
  | .next t, some c =>
    match t.result with
    | some (.result (.digest d)) => issue (.command (checkCommand d c)) t
    | _ => .next t
  | o, _ => o

/-- Instances, each with its own copy of all state, and the tables and configuration they share (R33). -/
structure System where
  /-- The one configuration, ROM tables included; it stands for every instance's `cfg`. -/
  shared : Params
  /-- What each instance has of its own. -/
  members : List State
  deriving DecidableEq, Repr

/-- Instance `i`: its own state over the shared configuration. -/
def System.member (sys : System) (i : Nat) : Option State :=
  sys.members[i]?.map (fun s => { s with cfg := sys.shared })

/-- `n` instances of a configuration after power-on (R33, R250). -/
def System.start (p : Params) (n : Nat) : System := ⟨p, List.replicate n (State.powerOn p)⟩

/-- One step of instance `i`; where it has none, the system does not change. -/
def systemStep (sys : System) (i : Nat) : System :=
  match sys.member i with
  | none => sys
  | some s =>
    match step s with
    | .next t => { sys with members := sys.members.set i t }
    | _ => sys

/-- An interleaving: the instances step in the order of a schedule (20_memory.md R63). -/
def systemRun (sys : System) (schedule : List Nat) : System := schedule.foldl systemStep sys

/-- What one instance does on its own in `k` steps. -/
def aloneSteps : Nat → State → State
  | 0, s => s
  | k + 1, s =>
    match step s with
    | .next t => aloneSteps k t
    | _ => aloneSteps k s

end Sys2Proof.Machine
end

