-- ==== Sys2Proof/Safety.lean ====
section
/-! DEFINITION. What holds of every instance between commands: the invariants that 10_state.md and 60_exceptions.md
state, as predicates on a state. -/

namespace Sys2Proof.Machine

/-- The engine between commands: at most 63 bytes held (R23); in phase READY a low counter word that is a multiple of 512
(R22) and a clear final-block flag (R24); in phase FINALIZED an empty buffer (R120). -/
abbrev Engine.Inv (e : Engine) : Prop :=
  e.buf.length ≤ 63 ∧ (e.phase = .ready → e.t0.toNat % 512 = 0 ∧ e.f = false) ∧ (e.phase = .finalized → e.buf = [])

/-- The `INFO` that the table of R221 lets go with a cause. -/
abbrev recordMatches (c : Cause) (i : Info) : Prop :=
  match c with
  | .none => i = ⟨0#8, 0⟩
  | .illegalOpcode => i.detail = 0
  | .reservedNonzero => 0 < i.detail ∧ i.detail < 2 ^ 24
  | .operandMismatch => 0 ≤ i.detail
  | .useAfterFinalize => (i.opcode = 0x02#8 ∨ i.opcode = 0x03#8 ∨ i.opcode = 0x04#8) ∧ i.detail = 0
  | .operandRange => i.opcode = 0x31#8
  | .missingTip => i = ⟨0x31#8, 0⟩
  | .missingAncestor => i.opcode = 0x31#8
  | .chainInconsistent => i.opcode = 0x31#8

/-- The fault record: a cause exactly while the latch is set, with an `INFO` that belongs to it (R221, R222). -/
abbrev State.RecordInv (s : State) : Prop := (s.fault = false ↔ s.cause = .none) ∧ recordMatches s.cause s.info

/-- The invariant every step keeps. -/
abbrev State.Inv (s : State) : Prop := s.engine.Inv ∧ s.RecordInv

/-- How many bytes an operand of kind BYTES carries (30_encoding.md R73; log 10). -/
def Operand.byteCount : Operand → Nat
  | .bytes bs => bs.length
  | _ => 0

/-! ## The terms in which claims speak of a message and of a walk -/

/-- A piece of a message, as one command delivers it: HE.WRITEB or HE.WRITE (40_hash_engine.md R104). -/
inductive Piece where
  | byte (b : Byte)
  | block (bs : List Byte)
  deriving DecidableEq, Repr

/-- The command that delivers a piece. -/
def Piece.command (v : View) : Piece → Command
  | .byte b => issueOf v (.heWriteb b) []
  | .block bs => writeCommand v bs

/-- The bytes of a piece. -/
def Piece.data : Piece → List Byte
  | .byte b => [b]
  | .block bs => bs

/-- The message that pieces deliver. -/
def messageOf (pieces : List Piece) : List Byte := pieces.flatMap Piece.data

/-- A piece that one command can carry (R103: `N` is at most 65535). -/
abbrev Piece.Carried (x : Piece) : Prop := x.data.length ≤ 65535

/-- `c` of the table of 40_hash_engine.md R123: what the carries of HE.FINAL have added to `T1` when its last block
(`second`: the second of two) is compressed. -/
def seenCarry (rule : CarryRule) (t0 : Word) (b : Nat) (second : Bool) : Word :=
  if t0 ≠ 0#32 then 0#32
  else if b = 0 then 1#32
  else
    match rule with
    | .zero => 0#32
    | .overflow => if second then 2#32 else 1#32

/-- An entry the walk steps back from, and the entry it steps to (43_retarget.md R191). -/
abbrev Skips (p : Params) (v : View) (e q : Entry) : Prop :=
  v.prev e = some q ∧ e.heightInt % p.interval ≠ 0 ∧ e.bits = encodeTarget p p.powLimit

/-- The walk goes from `e` to `q` in `k` steps, each to an entry one lower (R191). -/
def WalksTo (p : Params) (v : View) : Nat → Entry → Entry → Prop
  | 0, e, q => e = q
  | k + 1, e, q => ∃ m, Skips p v e m ∧ m.heightInt = e.heightInt - 1 ∧ WalksTo p v k m q

end Sys2Proof.Machine
end

