-- ==== Sys2Proof/Certificates/Slice0/Obligations.lean ====
section
/-! DEFINITION. The statements about the model, each with the rule of spec/ it formalises. A statement about a next
state gives that state whole (`{ s with … }`), so it also says what the command leaves unchanged. `pending` and `result` in such
a state are the model's own host interface (log 6), the rest is the block. -/

open Sys2Proof Sys2Proof.Machine

/-! ## Command words -/

/-- 30_encoding.md R71, R75, R76: no bit of an encoding is dropped. -/
def Obligations.DecodeOfEncode : Prop := ∀ i : Instr, decode (encode i) = .ok i

/-- R71, R77: a word that decodes is the one word of its command, so a reserved bit never has a meaning. -/
def Obligations.EncodeOfDecode : Prop := ∀ (w : Word) (i : Instr), decode w = .ok i → encode i = w

/-- R75: the decoder answers a row's command exactly for the words the row selects, and no word selects two rows (the
spec derives the second from the opcodes and masks). -/
def Obligations.OpcodeRowsSelect : Prop :=
  (∀ (w : Word) (r : OpcodeRow), r ∈ opcodeRows →
    (w &&& r.mask = r.pattern ↔ ∃ i, decode w = .ok i ∧ mnemonic i = r.mnemonic)) ∧
  (∀ (w : Word) (r q : OpcodeRow), r ∈ opcodeRows → q ∈ opcodeRows →
    w &&& r.mask = r.pattern → w &&& q.mask = q.pattern → r = q)

/-- R77: the decoder is total, and its checks run in this order. -/
def Obligations.DecodeCheckOrder : Prop :=
  ∀ w : Word,
    let known := [0x01#8, 0x02#8, 0x03#8, 0x04#8, 0x05#8, 0x10#8, 0x11#8, 0x20#8, 0x30#8, 0x31#8]
    let immReserved :=
      if opcField w = 0x03#8 then False
      else if opcField w = 0x02#8 then (imm16Field w).extractLsb' 8 8 ≠ 0#8
      else imm16Field w ≠ 0#16
    (opcField w ∉ known → decode w = .error .illegalOpcode) ∧
    (opcField w ∈ known → rsvField w ≠ 0#8 → decode w = .error .reservedNonzero) ∧
    (opcField w ∈ known → rsvField w = 0#8 → immReserved → decode w = .error .reservedNonzero) ∧
    (opcField w ∈ known → rsvField w = 0#8 → ¬ immReserved → ∃ i, decode w = .ok i ∧ opcode i = opcField w)

/-- R76, R79: words written out from the bit patterns decode to their commands. R77: a word with an unlisted opcode and
one with a reserved bit set are refused. -/
def Obligations.SpecWordsDecode : Prop :=
  decode 0b00000001000000000000000000000000#32 = .ok .heReset ∧
  decode 0b00000010000000000000000001100001#32 = .ok (.heWriteb 0x61#8) ∧
  decode 0b00000011000000000000000001010000#32 = .ok (.heWrite 80#16) ∧
  decode 0b00010001000000000000000000000000#32 = .ok .tcEncode ∧
  decode 0b00100000000000000000000000000000#32 = .ok .powCheck ∧
  decode 0b00110001000000000000000000000000#32 = .ok .drNext ∧
  decode 0b00000110000000000000000000000000#32 = .error .illegalOpcode ∧
  decode 0b00000010000000000000000101100001#32 = .error .reservedNonzero

/-- R71: a byte-wide link carries a command word least significant byte first. -/
def Obligations.LinkCarriesCommand : Prop :=
  ∀ (i : Instr) (rest : List Byte),
    decodeLink (encodeLink i ++ rest) = some (.ok i, rest) ∧ leNat (encodeLink i) = (encode i).toNat

/-- R73: the byte form of a tuple of a command's shape reads back as that tuple. -/
def Obligations.TupleBytesReadBack : Prop :=
  ∀ (i : Instr) (ops : List Operand) (bs : List Byte),
    tupleFits (tupleShape i) ops = true → tupleBytes ops = some bs → readTuple (tupleShape i) bs = some ops

/-! ## Steps -/

/-- R70, 20_memory.md R61: when the word of the host's next command decodes, the step is that command, and nothing
else. -/
def Obligations.StepRunsDecodedCommand : Prop :=
  ∀ (s : State) (c : Command) (rest : List HostAction) (i : Instr),
    s.pending = .command c :: rest → decode c.word = .ok i → step s = exec i s

/-- R77, 60_exceptions.md R221, R222: a word that is no command takes its fault, as a next state. -/
def Obligations.BadWordTakesItsFault : Prop :=
  ∀ (s : State) (c : Command) (rest : List HostAction),
    s.pending = .command c :: rest → s.fault = false →
    (decode c.word = .error .illegalOpcode →
      step s = .next { s with fault := true, cause := .illegalOpcode, info := ⟨opcField c.word, 0⟩,
                              pending := rest, result := some .faulted }) ∧
    (decode c.word = .error .reservedNonzero →
      step s = .next { s with fault := true, cause := .reservedNonzero,
                              info := ⟨opcField c.word, ((lowField c.word).toNat : Int)⟩,
                              pending := rest, result := some .faulted })

/-- 20_memory.md R61: every action of the host has a step, in every state. That a refused command of a latched block,
which 60_exceptions.md R224 says has no step, is given a next state is the model's choice (log 7). -/
def Obligations.EveryActionHasStep : Prop :=
  (∀ s : State, s.pending ≠ [] → ∃ t, step s = .next t) ∧
  (∀ (i : Instr) (s : State), ∃ t, exec i s = .next t)

/-- 60_exceptions.md R224, R225: while the latch is set, a command word other than HE.STATE with an empty tuple has no
effect on the block. That it is a step with a refusal on the result port is the model's choice (log 7). -/
def Obligations.LatchedBlockRefuses : Prop :=
  ∀ (s : State) (c : Command) (rest : List HostAction),
    s.pending = .command c :: rest → s.fault = true →
    ¬ (c.word = 0x05000000#32 ∧ c.operands = []) →
    step s = .next { s with pending := rest, result := some .refused }

/-- R224, R226, R251: no command clears the latch or replaces the first fault's record or touches the engine; power-on
reset alone clears it. -/
def Obligations.OnlyPowerOnClearsLatch : Prop :=
  (∀ (s t : State) (c : Command) (rest : List HostAction),
    s.pending = .command c :: rest → s.fault = true → step s = .next t →
    t.fault = true ∧ t.cause = s.cause ∧ t.info = s.info ∧ t.engine = s.engine ∧ t.cfg = s.cfg) ∧
  (∀ (s : State) (rest : List HostAction), s.pending = .powerOn :: rest →
    ∃ t, step s = .next t ∧ t.fault = false ∧ t.cause = .none ∧ t.info = ⟨0#8, 0⟩)

/-- R250: what power-on reset and HE.RESET leave. -/
def Obligations.ResetTable : Prop :=
  (∀ (s : State) (rest : List HostAction), s.pending = .powerOn :: rest →
    ∃ t, step s = .next t ∧ t.engine = ⟨s.cfg.iv, 0#32, 0#32, [], false, .ready⟩ ∧ t.fault = false ∧
      t.cause = .none ∧ t.info = ⟨0#8, 0⟩ ∧ t.statusWord = 0#32 ∧ t.cfg = s.cfg) ∧
  (∀ s : State, s.fault = false → s.operands = [] →
    ∃ t, exec .heReset s = .next t ∧ t.engine = ⟨s.cfg.iv, 0#32, 0#32, [], false, .ready⟩ ∧
      t.fault = s.fault ∧ t.cause = s.cause ∧ t.info = s.info ∧ t.cfg = s.cfg)

/-- 70_reset_and_hazards.md R250: the state right after reset meets the invariant. R254: its configuration may be
instantiated; that clause rests on the model's choices for it: the candidate `SIGMA` (log 2), `POW_LIMIT` kept out of 0
(log 3), the values of R8 (log 4), and the bounds of logs 17 and 27. -/
def Obligations.ResetMeetsInvariant : Prop := State.reset.Inv ∧ instantiate State.reset.cfg = some State.reset

/-- 10_state.md R22 to R24, 60_exceptions.md R221, R222: every step keeps the invariant: at most 63 bytes held, a low
counter word that is a multiple of 512 and a clear flag in phase READY, and a fault record that belongs to its cause
exactly while the latch is set. The clause of an empty buffer in phase FINALIZED rests on the model's reading (log 9) and
on the sentence R120 marks as derived, "Every path leaves `len(BUF) = 0` before the digest is read": R124 gives `BUF` no
meaning there. -/
def Obligations.StepKeepsInvariant : Prop := ∀ s t : State, s.Inv → step s = .next t → t.Inv

/-- 10_state.md R29, R31: no step writes the configuration or a ROM table. -/
def Obligations.StepKeepsConfiguration : Prop := ∀ s t : State, step s = .next t → t.cfg = s.cfg

/-- 60_exceptions.md R227, which the spec derives from R102, R103, R120 and R190: a faulting command leaves the engine
as it was, and the commands of the other units never write it. -/
def Obligations.FaultsArePrecise : Prop :=
  (∀ (i : Instr) (s t : State), s.fault = false → exec i s = .next t → t.fault = true →
    t.engine = s.engine ∧ t.cfg = s.cfg ∧ t.draws = s.draws ∧ t.pending = s.pending.tail ∧
      t.result = some .faulted) ∧
  (∀ (i : Instr) (s t : State), i ∈ [Instr.tcDecode, .tcEncode, .powCheck, .drRetarget, .drNext, .heState] →
    exec i s = .next t → t.engine = s.engine)

/-- R73, R221: a tuple of the wrong shape faults with the number of operands received; HE.WRITE with a byte count that
is not `N` faults with the number of bytes. -/
def Obligations.WrongTupleFaults : Prop :=
  (∀ (i : Instr) (s : State), s.fault = false → (∀ n, i ≠ .heWrite n) →
    tupleFits (tupleShape i) s.operands = false →
    exec i s = .next { s with fault := true, cause := .operandMismatch,
                              info := ⟨opcode i, (s.operands.length : Int)⟩,
                              pending := s.pending.tail, result := some .faulted }) ∧
  (∀ (n : BitVec 16) (bs : List Byte) (s : State), s.fault = false → s.operands = [.bytes bs] →
    bs.length ≠ n.toNat →
    exec (.heWrite n) s = .next { s with fault := true, cause := .operandMismatch,
                                         info := ⟨0x03#8, (bs.length : Int)⟩,
                                         pending := s.pending.tail, result := some .faulted })

/-- Operand tuples that R73 leaves open, as the model settles them (logs 10 and 11): HE.WRITE with a tuple that is no
`BYTES` operand of its length faults with the bytes received; with `N = 0` and an empty tuple it absorbs nothing; DR.NEXT
with a reference that is no entry of the view faults with its two operands. -/
def Obligations.OpenTuplesAnswered : Prop :=
  (∀ (n : BitVec 16) (s : State), s.fault = false → tupleFits (tupleShape (.heWrite n)) s.operands = false →
    (s.operands = [] → n ≠ 0#16) →
    exec (.heWrite n) s =
      .next { s with fault := true, cause := .operandMismatch,
                     info := ⟨0x03#8, (((s.operands.map Operand.byteCount).sum : Nat) : Int)⟩,
                     pending := s.pending.tail, result := some .faulted }) ∧
  (∀ s : State, s.fault = false → s.operands = [] → s.engine.phase = .ready →
    exec (.heWrite 0#16) s = .next { s with pending := s.pending.tail, result := some (.result .done) }) ∧
  (∀ (s : State) (r : Nat) (time : BitVec 64), s.fault = false → s.operands = [.entry (some r), .i64 time] →
    s.view.entry r = none →
    exec .drNext s = .next { s with fault := true, cause := .operandMismatch, info := ⟨0x31#8, 2⟩,
                                    pending := s.pending.tail, result := some .faulted })

/-- 43_retarget.md R195, 20_memory.md R59: the commands of the three other units do the same whatever the engine holds,
in either phase. -/
def Obligations.OtherUnitsIgnoreEngine : Prop :=
  ∀ (i : Instr) (s t : State) (e : Engine),
    i ∈ [Instr.tcDecode, .tcEncode, .powCheck, .drRetarget, .drNext] → exec i s = .next t →
    exec i { s with engine := e } = .next { t with engine := e }

/-! ## HashEngine -/

/-- 40_hash_engine.md R101: HE.RESET in either phase; no other command leaves phase FINALIZED. -/
def Obligations.HeResetResult : Prop :=
  encode .heReset = 0x01000000#32 ∧
  (∀ s : State, s.fault = false → s.operands = [] →
    exec .heReset s =
      .next { s with engine := ⟨s.cfg.iv, 0#32, 0#32, [], false, .ready⟩, pending := s.pending.tail,
                     result := some (.result .done) }) ∧
  (∀ (i : Instr) (s t : State), s.engine.phase = .finalized → exec i s = .next t → t.engine.phase = .ready →
    i = .heReset)

/-- 70_reset_and_hazards.md R253, derived there from R101: reset idempotence. -/
def Obligations.HeResetIdempotent : Prop :=
  ∀ (s : State) (v : View), s.fault = false →
    ∃ t, issue (.command (issueOf v .heReset [])) s = .next t ∧
      issue (.command (issueOf v .heReset [])) t = .next t ∧ t.engine = (State.powerOn s.cfg).engine

/-- R102, R106: HE.WRITEB appends its byte, and the 64th byte of a block advances the counter and compresses. -/
def Obligations.HeWritebResult : Prop :=
  ∀ (d : Byte) (s : State), s.fault = false → s.operands = [] → s.engine.phase = .ready →
    (s.engine.buf.length < 63 →
      exec (.heWriteb d) s =
        .next { s with engine := { s.engine with buf := s.engine.buf ++ [d] }, pending := s.pending.tail,
                       result := some (.result .done) }) ∧
    (s.engine.buf.length = 63 →
      let a := advanceCounter s.cfg s.engine
      exec (.heWriteb d) s =
        .next { s with engine := { s.engine with t0 := a.t0, t1 := a.t1, buf := [],
                                                 h := compress s.cfg s.engine.h a.t0 a.t1 s.engine.f
                                                        (s.engine.buf ++ [d]) },
                       pending := s.pending.tail, result := some (.result .done) })

/-- R103: HE.WRITE absorbs its bytes in order; with `N = 0` it changes nothing of the block. -/
def Obligations.HeWriteResult : Prop :=
  (∀ (n : BitVec 16) (bs : List Byte) (s : State), s.fault = false → s.operands = [.bytes bs] →
    bs.length = n.toNat → s.engine.phase = .ready →
    exec (.heWrite n) s =
      .next { s with engine := bs.foldl (absorb s.cfg) s.engine, pending := s.pending.tail,
                     result := some (.result .done) }) ∧
  (∀ s : State, s.fault = false → s.operands = [.bytes []] → s.engine.phase = .ready →
    exec (.heWrite 0#16) s = .next { s with pending := s.pending.tail, result := some (.result .done) })

/-- R104: streaming equivalence, which the spec derives from R102 and R103. Pieces delivered by HE.WRITEB and HE.WRITE
commands, in order, from a state in phase READY reach the state that one HE.WRITE of the whole message reaches. -/
def Obligations.StreamingEquivalence : Prop :=
  ∀ (v : View) (s : State) (pieces : List Piece), s.fault = false → s.engine.phase = .ready → pieces ≠ [] →
    (∀ x ∈ pieces, x.Carried) → (messageOf pieces).length ≤ 65535 →
    ∃ t, issueAll (pieces.map (Piece.command v)) s = .next t ∧
      issue (.command (writeCommand v (messageOf pieces))) s = .next t

/-- R107: the two carry rules agree whenever the low counter word is a multiple of 512 before the addition. -/
def Obligations.CarryRulesAgree : Prop :=
  ∀ (p : Params) (e : Engine), e.t0.toNat % 512 = 0 →
    advanceCounter { p with carryRule := .zero } e = advanceCounter { p with carryRule := .overflow } e

/-- R108, derived there from R107 and R22: after `k` blocks from reset, by whatever pieces, under either carry rule,
the counter is `512 k mod 2^64`. -/
def Obligations.CounterCountsBlocks : Prop :=
  ∀ (p : Params) (v : View) (pieces : List Piece) (k : Nat),
    (∀ x ∈ pieces, x.Carried) → (messageOf pieces).length = 64 * k →
    ∃ t, issueAll (pieces.map (Piece.command v)) (State.powerOn p) = .next t ∧
      t.engine.t1.toNat * 2 ^ 32 + t.engine.t0.toNat = 512 * k % 2 ^ 64 ∧ t.engine.buf = []

/-- R120, with what R122 and R123 derive from it: HE.FINAL of a buffer of at most 55 bytes runs one compression, on
this block, with this counter and flag, and returns the digest of what it leaves. -/
def Obligations.HeFinalOneBlock : Prop :=
  ∀ s : State, s.fault = false → s.operands = [] → s.engine.phase = .ready → s.engine.t0.toNat % 512 = 0 →
    s.engine.buf.length ≤ 55 →
    let e := s.engine
    let b := e.buf.length
    let tail := if b = 55 then [s.cfg.padMerged] else stopByte s.cfg :: zeros (54 - b) ++ [markByte s.cfg]
    let bits := BitVec.ofNat 64 (e.t1.toNat * 2 ^ 32 + e.t0.toNat + 8 * b)
    let h := compress s.cfg e.h (e.t0 + BitVec.ofNat 32 (8 * b))
      (e.t1 + seenCarry s.cfg.carryRule e.t0 b false) (e.f || b == 0) (e.buf ++ tail ++ lengthBytes bits)
    ∃ e', exec .heFinal s =
        .next { s with engine := e', pending := s.pending.tail, result := some (.result (.digest (digestBytes h))) } ∧
      e'.phase = .finalized

/-- R120, with what R122 and R123 derive from it: HE.FINAL of a buffer of 56 to 63 bytes runs two compressions. -/
def Obligations.HeFinalTwoBlocks : Prop :=
  ∀ s : State, s.fault = false → s.operands = [] → s.engine.phase = .ready → s.engine.t0.toNat % 512 = 0 →
    56 ≤ s.engine.buf.length → s.engine.buf.length ≤ 63 →
    let e := s.engine
    let b := e.buf.length
    let bits := BitVec.ofNat 64 (e.t1.toNat * 2 ^ 32 + e.t0.toNat + 8 * b)
    let low := e.t0 + BitVec.ofNat 32 (8 * b)
    let h1 := compress s.cfg e.h low (e.t1 + seenCarry s.cfg.carryRule e.t0 b false) e.f
      (e.buf ++ stopByte s.cfg :: zeros (63 - b))
    let h2 := compress s.cfg h1 low (e.t1 + seenCarry s.cfg.carryRule e.t0 b true) true
      (zeros 55 ++ [markByte s.cfg] ++ lengthBytes bits)
    ∃ e', exec .heFinal s =
        .next { s with engine := e', pending := s.pending.tail,
                       result := some (.result (.digest (digestBytes h2))) } ∧
      e'.phase = .finalized

/-- R113, derived there from the group table: within a half-round, columns or diagonals, the order of the calls cannot
change the result. -/
def Obligations.HalfRoundOrderFree : Prop :=
  ∀ (p : Params) (m v : Vector Word 16) (row : Vector (Fin 16) 16) (gs : List Group),
    (gs.Perm (groups.take 4) → gs.foldl (mixGroup p m row) v = (groups.take 4).foldl (mixGroup p m row) v) ∧
    (gs.Perm (groups.drop 4) → gs.foldl (mixGroup p m row) v = (groups.drop 4).foldl (mixGroup p m row) v)

/-- R110, R140: the working array before the rounds, in each profile. In DOC words 8 to 11 are `IV[0..3]`, the counter
enters words 12 and 13 whatever `F` is, and `F` inverts word 14. In BLAKE256 words 8 to 15 start as `CONST[0..7]`; with
`F` clear `T0` enters words 12 and 13 and `T1` words 14 and 15; with `F` set the counter does not reach the compression. -/
def Obligations.CounterAndFlagByProfile : Prop :=
  ∀ (p : Params) (h : Vector Word 8) (t0 t1 u0 u1 : Word) (f : Bool) (block : List Byte),
    (workingArray p h t0 t1 f).toList.take 8 = h.toList ∧
    (p.profile = .doc →
      (workingArray p h t0 t1 f)[12] = p.iv[4] ^^^ t0 ∧ (workingArray p h t0 t1 f)[13] = p.iv[5] ^^^ t1 ∧
      (workingArray p h t0 t1 f)[14] = (if f then ~~~p.iv[6] else p.iv[6]) ∧
      (workingArray p h t0 t1 f)[15] = p.iv[7] ∧
      ((workingArray p h t0 t1 f).toList.drop 8).take 4 = p.iv.toList.take 4) ∧
    (p.profile = .blake256 →
      ((workingArray p h t0 t1 f).toList.drop 8).take 4 = p.consts.toList.take 4 ∧
      (workingArray p h t0 t1 false).toList.drop 12 =
        [p.consts[4] ^^^ t0, p.consts[5] ^^^ t0, p.consts[6] ^^^ t1, p.consts[7] ^^^ t1] ∧
      (workingArray p h t0 t1 true).toList.drop 12 = (p.consts.toList.drop 4).take 4 ∧
      compress p h t0 t1 true block = compress p h u0 u1 true block)

/-- 20_memory.md R51, R140: each message word is four bytes of the block in order, read least significant byte first in
DOC and most significant byte first in BLAKE256. -/
def Obligations.MessageWordsByProfile : Prop :=
  ∀ (p : Params) (block : List Byte) (i : Fin 16), block.length = 64 →
    (p.profile = .doc → (messageWords p block)[i].toNat = leNat ((block.drop (4 * i.val)).take 4)) ∧
    (p.profile = .blake256 → (messageWords p block)[i].toNat = leNat ((block.drop (4 * i.val)).take 4).reverse)

/-- 60_exceptions.md R223: the three commands that fault in phase FINALIZED. -/
def Obligations.UseAfterFinalizeFaults : Prop :=
  ∀ (i : Instr) (s : State), s.fault = false → s.engine.phase = .finalized →
    ((∃ d, i = .heWriteb d) ∨ (∃ n, i = .heWrite n) ∨ i = .heFinal) →
    tupleFits (tupleShape i) s.operands = true →
    exec i s = .next { s with fault := true, cause := .useAfterFinalize, info := ⟨opcode i, 0⟩,
                              pending := s.pending.tail, result := some .faulted }

/-- 10_state.md R28: the layout of STATUS, in every state; it is 0 after power-on. -/
def Obligations.StatusLayout : Prop :=
  (∀ s : State,
    s.statusWord.extractLsb' 0 6 = BitVec.ofNat 6 s.engine.buf.length ∧
    s.statusWord.getLsbD 6 = s.engine.f ∧
    s.statusWord.getLsbD 7 = decide (s.engine.phase = .finalized) ∧
    s.statusWord.extractLsb' 8 8 = 0#8 ∧
    s.statusWord.extractLsb' 16 8 = causeCode s.cause ∧
    s.statusWord.getLsbD 24 = s.fault ∧
    s.statusWord.extractLsb' 25 7 = 0#7) ∧
  (∀ p : Params, (State.powerOn p).statusWord = 0#32) ∧
  (∀ s : State, s.operands = [] → s.engine.phase = .ready →
    ∃ (t : State) (x : Snapshot), exec .heState s = .next t ∧ t.result = some (.result (.snapshot x)) ∧
      x.status = s.statusWord)

/-- R125: HE.STATE in phase READY, with the latch set or clear. -/
def Obligations.HeStateInReady : Prop :=
  ∀ s : State, s.operands = [] → s.engine.phase = .ready →
    exec .heState s =
      .next { s with pending := s.pending.tail,
                     result := some (.result (.snapshot
                       ⟨s.statusWord, s.engine.h, s.engine.t0, s.engine.t1, s.engine.buf⟩)) }

/-- R124, R125: HE.STATE in phase FINALIZED. Only FINALIZED, CAUSE, FAULT and the reserved bits are determined, and as
many bytes are shown as FILL says; the rest are free values (log 8), of which this says nothing. -/
def Obligations.HeStateInFinalized : Prop :=
  ∀ s : State, s.operands = [] → s.engine.phase = .finalized →
    ∃ x : Snapshot,
      exec .heState s =
        .next { s with pending := s.pending.tail, draws := s.draws + 1, result := some (.result (.snapshot x)) } ∧
      x.buf.length = (x.status.extractLsb' 0 6).toNat ∧ x.status.getLsbD 7 = true ∧
      x.status.extractLsb' 8 8 = 0#8 ∧ x.status.extractLsb' 16 8 = causeCode s.cause ∧
      x.status.getLsbD 24 = s.fault ∧ x.status.extractLsb' 25 7 = 0#7

/-- 20_memory.md R54, derived there from R53 and R13: the integer of a digest, word by word. -/
def Obligations.DigestAsInteger : Prop :=
  ∀ h : Vector Word 8,
    leNat (digestBytes h) = ((List.finRange 8).map (fun i => (byteswap32 h[i]).toNat * 2 ^ (32 * i.val))).sum

/-- 40_hash_engine.md R126, derived there from R101 and R104; 30_encoding.md R80: the digest of `hash M` is a function
of `M` alone (and of the configuration): from any unlatched state it is the digest a fresh instance gives. -/
def Obligations.HashDependsOnMessageOnly : Prop :=
  ∀ (v : View) (s : State) (m : List Byte), s.fault = false →
    ∃ t u d, issueAll (hashCommands v m) s = .next t ∧ issueAll (hashCommands v m) (State.powerOn s.cfg) = .next u ∧
      t.result = some (.result (.digest d)) ∧ u.result = some (.result (.digest d)) ∧ d.length = 32 ∧
      t.engine.phase = .finalized ∧ t.fault = false

/-! ## TargetCodec -/

/-- 41_target_codec.md R150: TC.DECODE with the reference codec. -/
def Obligations.TcDecodeResult : Prop :=
  encode .tcDecode = 0x10000000#32 ∧
  ∀ (s : State) (c : Word), s.fault = false → s.operands = [.u32 c] → s.cfg.codec = .reference →
    let size := (c.extractLsb' 24 8).toNat
    let word := if size ≤ 3 then (c.extractLsb' 0 23).toNat / 2 ^ (8 * (3 - size)) else (c.extractLsb' 0 23).toNat
    ∃ d : Decoded,
      exec .tcDecode s = .next { s with pending := s.pending.tail, result := some (.result (.target d)) } ∧
      d.value.toNat = (if size ≤ 3 then word else word * 2 ^ (8 * (size - 3)) % 2 ^ 256) ∧
      (d.neg = true ↔ word ≠ 0 ∧ c.getLsbD 23 = true) ∧
      (d.ovf = true ↔ word ≠ 0 ∧ (34 < size ∨ (0xFF < word ∧ 33 < size) ∨ (0xFFFF < word ∧ 32 < size)))

/-- A corner case that R150 derives: `OVF` is true exactly when the shifted mantissa does not fit in 256 bits. -/
def Obligations.OverflowMeansTooWide : Prop :=
  ∀ c : Word,
    let size := (c.extractLsb' 24 8).toNat
    (referenceDecode c).ovf = true ↔ 3 < size ∧ 2 ^ 256 ≤ (c.extractLsb' 0 23).toNat * 2 ^ (8 * (size - 3))

/-- R155: TC.ENCODE with the reference codec. Target 0 gives 0; for any other the sign flag is clear, the exponent at most
33, and the mantissa is the target shifted to the exponent and at least 2^15, which leaves one exponent. -/
def Obligations.TcEncodeResult : Prop :=
  encode .tcEncode = 0x11000000#32 ∧
  ∀ (s : State) (x : Target), s.fault = false → s.operands = [.u256 x] → s.cfg.codec = .reference →
    ∃ c : Word,
      exec .tcEncode s = .next { s with pending := s.pending.tail, result := some (.result (.compact c)) } ∧
      c.getLsbD 23 = false ∧ (c.extractLsb' 24 8).toNat ≤ 33 ∧
      (x = 0#256 → c = 0#32) ∧
      (x ≠ 0#256 → 2 ^ 15 ≤ (c.extractLsb' 0 23).toNat) ∧
      (let e := (c.extractLsb' 24 8).toNat
       let m := (c.extractLsb' 0 23).toNat
       (e ≤ 3 → m = x.toNat * 2 ^ (8 * (3 - e))) ∧ (3 < e → m = x.toNat / 2 ^ (8 * (e - 3))))

/-- R156, derived there from R150 and R155: decoding an encoded target clears its low `8 · max(0, e − 3)` bits, and
reports neither condition. -/
def Obligations.CodecRoundTrip : Prop :=
  ∀ t : Target,
    let e := ((referenceEncode t).extractLsb' 24 8).toNat
    let d := referenceDecode (referenceEncode t)
    let low := 2 ^ (8 * (e - 3))
    d.neg = false ∧ d.ovf = false ∧ d.value.toNat = t.toNat / low * low ∧ d.value.toNat ≤ t.toNat ∧
      (d.value = t ↔ t.toNat % low = 0)

/-- R150, R155: whatever codec is configured (D23), TC.DECODE and TC.ENCODE complete with what it answers. -/
def Obligations.EveryCodecCompletes : Prop :=
  (∀ (s : State) (c : Word), s.fault = false → s.operands = [.u32 c] →
    exec .tcDecode s =
      .next { s with pending := s.pending.tail, result := some (.result (.target (decodeTarget s.cfg c))) }) ∧
  (∀ (s : State) (x : Target), s.fault = false → s.operands = [.u256 x] →
    exec .tcEncode s =
      .next { s with pending := s.pending.tail, result := some (.result (.compact (encodeTarget s.cfg x))) })

/-- R149 items 1 and 2, as the model reads them (log 5), for every configured codec. A decode is negative only under the
sign flag and its target has at most as many bytes as the exponent says; an encode's exponent is a byte length of the
target, and no longer than the target with a sign bit takes. -/
def Obligations.EveryCodecKeepsLayout : Prop :=
  (∀ (p : Params) (c : Word),
    ((decodeTarget p c).neg = true → c.getLsbD 23 = true) ∧
    (decodeTarget p c).value.toNat < 2 ^ (8 * (c.extractLsb' 24 8).toNat)) ∧
  (∀ (p : Params) (t : Target),
    t.toNat < 2 ^ (8 * ((encodeTarget p t).extractLsb' 24 8).toNat) ∧
    ∀ k, 2 * t.toNat < 2 ^ (8 * k) → ((encodeTarget p t).extractLsb' 24 8).toNat ≤ k)

/-! ## ProofOfWorkValidator -/

/-- 42_pow_validator.md R170: the verdict of POW.CHECK. -/
def Obligations.PowCheckResult : Prop :=
  encode .powCheck = 0x20000000#32 ∧
  ∀ (s : State) (hash : List Byte) (c : Word), s.fault = false → s.operands = [.bytes hash, .u32 c] →
    hash.length = 32 →
    let d := decodeTarget s.cfg c
    ∃ ok : Bool,
      exec .powCheck s = .next { s with pending := s.pending.tail, result := some (.result (.verdict ok)) } ∧
      (ok = true ↔ d.neg = false ∧ d.ovf = false ∧ d.value ≠ 0#256 ∧ d.value.toNat ≤ s.cfg.powLimit.toNat ∧
        leNat hash ≤ d.value.toNat)

/-- R173, derived there from R170: the boundary property. -/
def Obligations.PowBoundary : Prop :=
  ∀ (s : State) (hash : List Byte) (c : Word) (t : Target) (neg ovf : Bool), s.fault = false →
    s.operands = [.bytes hash, .u32 c] → hash.length = 32 → decodeTarget s.cfg c = ⟨t, neg, ovf⟩ →
    let gives (ok : Bool) : Prop :=
      exec .powCheck s = .next { s with pending := s.pending.tail, result := some (.result (.verdict ok)) }
    (neg = false → ovf = false → 0 < t.toNat → t.toNat ≤ s.cfg.powLimit.toNat → leNat hash = t.toNat → gives true) ∧
    (neg = false → ovf = false → 0 < t.toNat → t.toNat ≤ s.cfg.powLimit.toNat → leNat hash = t.toNat + 1 →
      gives false) ∧
    (t.toNat = 0 → gives false) ∧
    (s.cfg.powLimit.toNat < t.toNat → gives false)

/-- 30_encoding.md R84, derived there from R55 and R170: `pow.header` on a fresh message returns the verdict on the
header's own digest and bits. -/
def Obligations.PowHeaderVerdict : Prop :=
  ∀ (v : View) (s : State) (hdr : List Byte) (x : Expansion), s.fault = false → hdr.length = 80 →
    assemble v (.powHeader hdr) = some x →
    ∃ t u d, issueAll x.commands s = .next u ∧ u.result = some (.result (.digest d)) ∧
      runExpansion x s = .next t ∧
      t.result = some (.result (.verdict
        (meetsTarget s.cfg d (le32 (hdr.getD 72 0#8) (hdr.getD 73 0#8) (hdr.getD 74 0#8) (hdr.getD 75 0#8)))))

/-! ## DifficultyRetargeter -/

/-- 43_retarget.md R183, derived there from R182: the table of the clamp with the source's values, for every timespan and
height, and its ranges. -/
def Obligations.ClampRanges : Prop :=
  ∀ (p : Params) (a h : Int), p.SourceTimes →
    (3500 ≤ h → a < 900 → clamp p a h = 3495) ∧
    (3500 ≤ h → 900 ≤ a → a ≤ 7200 → clamp p a h = a) ∧
    (h < 3500 → a < 3130 → clamp p a h = 3130) ∧
    (h < 3500 → 3130 ≤ a → a ≤ 7200 → clamp p a h = a) ∧
    (7200 < a → clamp p a h = 7200) ∧
    (3500 ≤ h → 900 ≤ clamp p a h ∧ clamp p a h ≤ 7200) ∧
    (h < 3500 → 3130 ≤ clamp p a h ∧ clamp p a h ≤ 7200) ∧
    0 < clamp p a h

/-- R185: DR.RETARGET. `a` is the clamped timespan; the product is taken modulo 2^256 under W256. -/
def Obligations.DrRetargetResult : Prop :=
  ∀ (s : State) (old : Word) (span : BitVec 64) (height : BitVec 32), s.fault = false →
    s.operands = [.u32 old, .i64 span, .i32 height] → s.cfg.SourceTimes →
    let a := (clamp s.cfg span.toInt height.toInt).toNat
    let t := (decodeTarget s.cfg old).value.toNat
    let product := if s.cfg.productWidth = .w256 then t * a % 2 ^ 256 else t * a
    let answers (c : Word) : Prop :=
      exec .drRetarget s = .next { s with pending := s.pending.tail, result := some (.result (.compact c)) }
    (s.cfg.noRetargeting = true → answers old) ∧
    (s.cfg.noRetargeting = false →
      answers (encodeTarget s.cfg (BitVec.ofNat 256 (min (product / 3600) s.cfg.powLimit.toNat))))

/-- R187, derived there from R185: below 2^243 the two product widths give the same result. -/
def Obligations.ProductWidthsAgree : Prop :=
  ∀ (p : Params) (old : Word) (span height : Int), p.SourceTimes → p.powLimit.toNat < 2 ^ 243 →
    (decodeTarget p old).value.toNat ≤ p.powLimit.toNat →
    retarget { p with productWidth := .w256 } old span height =
      retarget { p with productWidth := .unbounded } old span height

/-- R190 to R193, 60_exceptions.md R225: where DR.NEXT faults before any walk, and with what detail. -/
def Obligations.DrNextFaults : Prop :=
  ∀ (s : State) (ref : Option Nat) (time : BitVec 64), s.fault = false → s.operands = [.entry ref, .i64 time] →
    let faults (c : Cause) (d : Int) : Prop :=
      exec .drNext s = .next { s with fault := true, cause := c, info := ⟨0x31#8, d⟩, pending := s.pending.tail,
                                      result := some .faulted }
    (ref = none → faults .missingTip 0) ∧
    (∀ r tip, ref = some r → s.view.entry r = some tip →
      (tip.heightInt < 0 ∨ tip.heightInt = 2 ^ 31 - 1 → faults .operandRange tip.heightInt) ∧
      (0 ≤ tip.heightInt → tip.heightInt < 2 ^ 31 - 1 →
        ((tip.heightInt + 1) % s.cfg.interval = 0 →
          let ha := tip.heightInt - (s.cfg.interval - 1)
          (s.view.ancestor tip ha = none → faults .missingAncestor ha) ∧
          (∀ anc, s.view.ancestor tip ha = some anc →
            (anc.heightInt ≠ ha → faults .chainInconsistent anc.heightInt) ∧
            (anc.heightInt = ha →
              ¬ (-2 ^ 63 ≤ tip.timeInt - anc.timeInt ∧ tip.timeInt - anc.timeInt < 2 ^ 63) →
              faults .operandRange (tip.timeInt - anc.timeInt)))) ∧
        ((tip.heightInt + 1) % s.cfg.interval ≠ 0 → s.cfg.allowMinDifficulty = true →
          ¬ (-2 ^ 63 ≤ tip.timeInt + 2 * s.cfg.spacing ∧ tip.timeInt + 2 * s.cfg.spacing < 2 ^ 63) →
          faults .operandRange (tip.timeInt + 2 * s.cfg.spacing))))

/-- R190, R194: what DR.NEXT returns at a block that is no boundary without the walk, and at a boundary block. -/
def Obligations.DrNextResult : Prop :=
  ∀ (s : State) (r : Nat) (time : BitVec 64) (tip : Entry), s.fault = false →
    s.operands = [.entry (some r), .i64 time] → s.view.entry r = some tip →
    0 ≤ tip.heightInt → tip.heightInt < 2 ^ 31 - 1 →
    let answers (c : Word) : Prop :=
      exec .drNext s = .next { s with pending := s.pending.tail, result := some (.result (.compact c)) }
    let limit := tip.timeInt + 2 * s.cfg.spacing
    ((tip.heightInt + 1) % s.cfg.interval ≠ 0 → s.cfg.allowMinDifficulty = false → answers tip.bits) ∧
    ((tip.heightInt + 1) % s.cfg.interval ≠ 0 → s.cfg.allowMinDifficulty = true →
      -2 ^ 63 ≤ limit → limit < 2 ^ 63 → limit < time.toInt → answers (encodeTarget s.cfg s.cfg.powLimit)) ∧
    (∀ anc, (tip.heightInt + 1) % s.cfg.interval = 0 →
      s.view.ancestor tip (tip.heightInt - (s.cfg.interval - 1)) = some anc →
      anc.heightInt = tip.heightInt - (s.cfg.interval - 1) →
      -2 ^ 63 ≤ tip.timeInt - anc.timeInt → tip.timeInt - anc.timeInt < 2 ^ 63 →
      answers (retarget s.cfg tip.bits (tip.timeInt - anc.timeInt)
        (if s.cfg.heightSource = .tip then tip.heightInt else tip.heightInt + 1)))

/-- R191: DR.NEXT by way of the walk. It steps back while an entry has a previous entry, is no boundary block and
carries the minimum-difficulty encoding, at most `height mod INTERVAL` times; it returns the bits of the first entry
that fails this, or faults at the first previous entry of a wrong height. -/
def Obligations.DrNextWalks : Prop :=
  ∀ (s : State) (r : Nat) (time : BitVec 64) (tip : Entry), s.fault = false →
    s.operands = [.entry (some r), .i64 time] → s.view.entry r = some tip →
    0 ≤ tip.heightInt → tip.heightInt < 2 ^ 31 - 1 → 0 < s.cfg.interval →
    (tip.heightInt + 1) % s.cfg.interval ≠ 0 → s.cfg.allowMinDifficulty = true →
    -2 ^ 63 ≤ tip.timeInt + 2 * s.cfg.spacing → tip.timeInt + 2 * s.cfg.spacing < 2 ^ 63 →
    time.toInt ≤ tip.timeInt + 2 * s.cfg.spacing →
    ∃ k q, WalksTo s.cfg s.view k tip q ∧ (k : Int) ≤ tip.heightInt % s.cfg.interval ∧
      (((∀ m, ¬ Skips s.cfg s.view q m) ∧
        exec .drNext s = .next { s with pending := s.pending.tail, result := some (.result (.compact q.bits)) }) ∨
       (∃ m, Skips s.cfg s.view q m ∧ m.heightInt ≠ q.heightInt - 1 ∧
        exec .drNext s = .next { s with fault := true, cause := .chainInconsistent,
                                        info := ⟨0x31#8, m.heightInt⟩, pending := s.pending.tail,
                                        result := some .faulted }))

/-- R194, derived there from R182: whose height a boundary retarget receives makes no difference at any tip height but
3499; there the clamp differs for every timespan below 3130, and DR.NEXT can differ. -/
def Obligations.HeightSourceMattersOnce : Prop :=
  (∀ (p : Params) (v : View) (tip : Option Entry) (time : Int), p.SourceTimes →
    (∀ e, tip = some e → e.heightInt ≠ 3499) →
    nextDifficulty { p with heightSource := .tip } v tip time =
      nextDifficulty { p with heightSource := .next } v tip time) ∧
  (∀ (p : Params) (a : Int), p.SourceTimes → a < 3130 →
    clamp p a 3499 = 3130 ∧ clamp p a 3500 = (if a < 900 then 3495 else a)) ∧
  (∃ (p : Params) (v : View) (e : Entry) (time : Int), p.SourceTimes ∧ v.Honest ∧ e ∈ v.entries ∧ e.heightInt = 3499 ∧
    nextDifficulty { p with heightSource := .tip } v (some e) time = .ok 0x1c0de93d#32 ∧
    nextDifficulty { p with heightSource := .next } v (some e) time = .ok 0x1c0f8887#32)

/-- R181, R191 to R193: over a view that keeps the host's duties, DR.NEXT answers, unless the height is out of range or
an ancestor is missing. -/
def Obligations.HonestViewNeverInconsistent : Prop :=
  ∀ (p : Params) (v : View) (tip : Entry) (time : Int), p.SourceTimes → v.Honest → tip ∈ v.entries →
    0 ≤ tip.heightInt → tip.heightInt < 2 ^ 31 - 1 →
    (∃ c, nextDifficulty p v (some tip) time = .ok c) ∨
      nextDifficulty p v (some tip) time = .error (.missingAncestor, tip.heightInt - 19)

/-! ## The host -/

/-- 30_encoding.md R79 to R84: every command the assembler issues decodes and has an operand tuple of its shape. -/
def Obligations.AssemblerIssuesWellFormed : Prop :=
  ∀ (v : View) (l : AsmLine) (x : Expansion), assemble v l = some x → ∀ c ∈ x.commands, c.wellFormed = true

/-- R79 to R84: what the lines that carry a message issue. `he.writes` is one HE.WRITE for each of some chunks that make up
the message, none empty and none above 65535 bytes; `hash` puts HE.RESET before and HE.FINAL after them, `hash.chk` a
further HE.RESET; `hash80` is one write of 80 bytes, and `pow.header` adds a well-formed POW.CHECK of the digest against
bytes 72 to 75. -/
def Obligations.AssemblerCarriesMessage : Prop :=
  (∀ (v : View) (m : List Byte), ∃ chunks : List (List Byte),
    chunks.flatten = m ∧ (∀ x ∈ chunks, 0 < x.length ∧ x.length ≤ 65535) ∧
    (let writes := chunks.map (fun x => Command.mk (0x03000000#32 + BitVec.ofNat 32 x.length) [.bytes x] v)
     let reset := Command.mk 0x01000000#32 [] v
     let final := Command.mk 0x04000000#32 [] v
     assemble v (.heWrites m) = some ⟨writes, none⟩ ∧
     assemble v (.hash m) = some ⟨reset :: writes ++ [final], none⟩ ∧
     assemble v (.hashChk m) = some ⟨reset :: writes ++ [final, reset], none⟩)) ∧
  (∀ (v : View) (hdr : List Byte),
    (hdr.length = 80 →
      let cmds := [Command.mk 0x01000000#32 [] v, ⟨0x03000050#32, [.bytes hdr], v⟩, ⟨0x04000000#32, [], v⟩]
      assemble v (.hash80 hdr) = some ⟨cmds, none⟩ ∧
      assemble v (.powHeader hdr) =
        some ⟨cmds, some (le32 (hdr.getD 72 0#8) (hdr.getD 73 0#8) (hdr.getD 74 0#8) (hdr.getD 75 0#8))⟩) ∧
    (hdr.length ≠ 80 → assemble v (.hash80 hdr) = none ∧ assemble v (.powHeader hdr) = none)) ∧
  (∀ (v : View) (l : AsmLine) (x : Expansion) (c : Word) (d : List Byte),
    assemble v l = some x → x.thenCheck = some c → d.length = 32 → (checkCommand d c).wellFormed = true)

/-- 20_memory.md R63, derived there from R33 and R61: any interleaving gives each instance the state its own commands
give it alone; 10_state.md R33: the instances share one configuration, which stays as it is, and start alike. That the
instances are a list of states of their own, so that no step could reach another's, is the model's choice (log 20). -/
def Obligations.InstancesAreIndependent : Prop :=
  (∀ (sys : System) (schedule : List Nat) (i : Nat),
    (systemRun sys schedule).member i = (sys.member i).map (aloneSteps (schedule.count i)) ∧
    (systemRun sys schedule).shared = sys.shared ∧
    ∀ s, (systemRun sys schedule).member i = some s → s.cfg = sys.shared) ∧
  (∀ (p : Params) (n i : Nat), i < n → (System.start p n).member i = some (State.powerOn p))
end

