-- ==== Sys2Proof/Laws/State.lean ====
section
/-! SUPPORT. What each named update of a state or an engine does to each field, by unfolding once. -/

namespace Sys2Proof.Machine

/-! ## `State.complete` -/

section
variable (s : State) (c : Completion)
@[simp] theorem State.complete_cfg : (s.complete c).cfg = s.cfg := rfl
@[simp] theorem State.complete_engine : (s.complete c).engine = s.engine := rfl
@[simp] theorem State.complete_fault : (s.complete c).fault = s.fault := rfl
@[simp] theorem State.complete_cause : (s.complete c).cause = s.cause := rfl
@[simp] theorem State.complete_info : (s.complete c).info = s.info := rfl
@[simp] theorem State.complete_pending : (s.complete c).pending = s.pending.tail := rfl
@[simp] theorem State.complete_result : (s.complete c).result = some c := rfl
@[simp] theorem State.complete_draws : (s.complete c).draws = s.draws := rfl
end

/-! ## `State.done` -/

section
variable (s : State) (r : Result)
@[simp] theorem State.done_cfg : (s.done r).cfg = s.cfg := rfl
@[simp] theorem State.done_engine : (s.done r).engine = s.engine := rfl
@[simp] theorem State.done_fault : (s.done r).fault = s.fault := rfl
@[simp] theorem State.done_cause : (s.done r).cause = s.cause := rfl
@[simp] theorem State.done_info : (s.done r).info = s.info := rfl
@[simp] theorem State.done_pending : (s.done r).pending = s.pending.tail := rfl
@[simp] theorem State.done_result : (s.done r).result = some (.result r) := rfl
@[simp] theorem State.done_draws : (s.done r).draws = s.draws := rfl
end

/-! ## `State.refuse` -/

section
variable (s : State)
@[simp] theorem State.refuse_cfg : s.refuse.cfg = s.cfg := rfl
@[simp] theorem State.refuse_engine : s.refuse.engine = s.engine := rfl
@[simp] theorem State.refuse_fault : s.refuse.fault = s.fault := rfl
@[simp] theorem State.refuse_cause : s.refuse.cause = s.cause := rfl
@[simp] theorem State.refuse_info : s.refuse.info = s.info := rfl
@[simp] theorem State.refuse_pending : s.refuse.pending = s.pending.tail := rfl
@[simp] theorem State.refuse_result : s.refuse.result = some .refused := rfl
@[simp] theorem State.refuse_draws : s.refuse.draws = s.draws := rfl
end

/-! ## `State.raise` -/

section
variable (s : State) (c : Cause) (opc : Byte) (d : Int)
@[simp] theorem State.raise_cfg : (s.raise c opc d).cfg = s.cfg := rfl
@[simp] theorem State.raise_engine : (s.raise c opc d).engine = s.engine := rfl
@[simp] theorem State.raise_fault : (s.raise c opc d).fault = true := rfl
@[simp] theorem State.raise_cause : (s.raise c opc d).cause = c := rfl
@[simp] theorem State.raise_info : (s.raise c opc d).info = ⟨opc, d⟩ := rfl
@[simp] theorem State.raise_pending : (s.raise c opc d).pending = s.pending.tail := rfl
@[simp] theorem State.raise_result : (s.raise c opc d).result = some .faulted := rfl
@[simp] theorem State.raise_draws : (s.raise c opc d).draws = s.draws := rfl
end

/-! ## `State.powerOn` and `State.powerCycle` -/

section
variable (p : Params) (s : State)
@[simp] theorem State.powerOn_cfg : (State.powerOn p).cfg = p := rfl
@[simp] theorem State.powerOn_engine : (State.powerOn p).engine = initialEngine p := rfl
@[simp] theorem State.powerOn_fault : (State.powerOn p).fault = false := rfl
@[simp] theorem State.powerOn_cause : (State.powerOn p).cause = .none := rfl
@[simp] theorem State.powerOn_info : (State.powerOn p).info = ⟨0#8, 0⟩ := rfl
@[simp] theorem State.powerOn_pending : (State.powerOn p).pending = [] := rfl
@[simp] theorem State.powerOn_result : (State.powerOn p).result = none := rfl
@[simp] theorem State.powerOn_draws : (State.powerOn p).draws = 0 := rfl
@[simp] theorem State.powerCycle_cfg : s.powerCycle.cfg = s.cfg := rfl
@[simp] theorem State.powerCycle_engine : s.powerCycle.engine = initialEngine s.cfg := rfl
@[simp] theorem State.powerCycle_fault : s.powerCycle.fault = false := rfl
@[simp] theorem State.powerCycle_cause : s.powerCycle.cause = .none := rfl
@[simp] theorem State.powerCycle_info : s.powerCycle.info = ⟨0#8, 0⟩ := rfl
@[simp] theorem State.powerCycle_pending : s.powerCycle.pending = s.pending.tail := rfl
@[simp] theorem State.powerCycle_result : s.powerCycle.result = none := rfl
@[simp] theorem State.powerCycle_draws : s.powerCycle.draws = s.draws := rfl
end

/-! ## What a pending command shows -/

section
variable (s : State) (c : Command) (rest : List HostAction)
theorem State.operands_of_pending (h : s.pending = .command c :: rest) : s.operands = c.operands := by
  simp [State.operands, h]
theorem State.view_of_pending (h : s.pending = .command c :: rest) : s.view = c.view := by
  simp [State.view, h]
end

section
variable (v : View) (i : Instr) (ops : List Operand)
@[simp] theorem issueOf_word : (issueOf v i ops).word = encode i := rfl
@[simp] theorem issueOf_operands : (issueOf v i ops).operands = ops := rfl
@[simp] theorem issueOf_view : (issueOf v i ops).view = v := rfl
end

/-! ## `initialEngine`, `lowerCounter`, `setFinal`, `advanceCounter`, `compressBuffer` -/

section
variable (p : Params) (e : Engine) (n : Nat)
@[simp] theorem initialEngine_h : (initialEngine p).h = p.iv := rfl
@[simp] theorem initialEngine_t0 : (initialEngine p).t0 = 0#32 := rfl
@[simp] theorem initialEngine_t1 : (initialEngine p).t1 = 0#32 := rfl
@[simp] theorem initialEngine_buf : (initialEngine p).buf = [] := rfl
@[simp] theorem initialEngine_f : (initialEngine p).f = false := rfl
@[simp] theorem initialEngine_phase : (initialEngine p).phase = .ready := rfl
@[simp] theorem lowerCounter_h : (lowerCounter n e).h = e.h := rfl
@[simp] theorem lowerCounter_t0 : (lowerCounter n e).t0 = e.t0 - BitVec.ofNat 32 n := rfl
@[simp] theorem lowerCounter_t1 : (lowerCounter n e).t1 = e.t1 := rfl
@[simp] theorem lowerCounter_buf : (lowerCounter n e).buf = e.buf := rfl
@[simp] theorem lowerCounter_f : (lowerCounter n e).f = e.f := rfl
@[simp] theorem lowerCounter_phase : (lowerCounter n e).phase = e.phase := rfl
@[simp] theorem setFinal_h : (setFinal e).h = e.h := rfl
@[simp] theorem setFinal_t0 : (setFinal e).t0 = e.t0 := rfl
@[simp] theorem setFinal_t1 : (setFinal e).t1 = e.t1 := rfl
@[simp] theorem setFinal_buf : (setFinal e).buf = e.buf := rfl
@[simp] theorem setFinal_f : (setFinal e).f = true := rfl
@[simp] theorem setFinal_phase : (setFinal e).phase = e.phase := rfl
@[simp] theorem advanceCounter_h : (advanceCounter p e).h = e.h := by simp only [advanceCounter]
@[simp] theorem advanceCounter_t0 : (advanceCounter p e).t0 = e.t0 + 512#32 := by simp only [advanceCounter]
@[simp] theorem advanceCounter_buf : (advanceCounter p e).buf = e.buf := by simp only [advanceCounter]
@[simp] theorem advanceCounter_f : (advanceCounter p e).f = e.f := by simp only [advanceCounter]
@[simp] theorem advanceCounter_phase : (advanceCounter p e).phase = e.phase := by simp only [advanceCounter]
@[simp] theorem compressBuffer_t0 : (compressBuffer p e).t0 = e.t0 + 512#32 := by
  simp only [compressBuffer, advanceCounter]
@[simp] theorem compressBuffer_t1 : (compressBuffer p e).t1 = (advanceCounter p e).t1 := by
  simp only [compressBuffer, advanceCounter]
@[simp] theorem compressBuffer_buf : (compressBuffer p e).buf = [] := by
  simp only [compressBuffer, advanceCounter]
@[simp] theorem compressBuffer_f : (compressBuffer p e).f = e.f := by
  simp only [compressBuffer, advanceCounter]
@[simp] theorem compressBuffer_phase : (compressBuffer p e).phase = e.phase := by
  simp only [compressBuffer, advanceCounter]
theorem compressBuffer_h :
    (compressBuffer p e).h = compress p e.h (e.t0 + 512#32) (advanceCounter p e).t1 e.f e.buf := by
  simp only [compressBuffer, advanceCounter]
end

end Sys2Proof.Machine
end

