-- ==== Sys2Proof/Laws/Engine.lean ====
section
/-! SUPPORT. Absorption (40_hash_engine.md R106): one byte, many bytes, up to a full block, and what it leaves alone. -/

namespace Sys2Proof.Machine

section
variable (p : Params) (e : Engine)

/-- A byte that does not fill the buffer is only appended. -/
theorem absorb_short (b : Byte) (h : e.buf.length ≠ 63) : absorb p e b = { e with buf := e.buf ++ [b] } := by
  simp [absorb, h]

/-- The 64th byte compresses the block. -/
theorem absorb_full (b : Byte) (h : e.buf.length = 63) :
    absorb p e b = compressBuffer p { e with buf := e.buf ++ [b] } := by
  simp [absorb, h]

@[simp] theorem absorbAll_nil : absorbAll p e [] = e := rfl

@[simp] theorem absorbAll_cons (b : Byte) (bs : List Byte) :
    absorbAll p e (b :: bs) = absorbAll p (absorb p e b) bs := rfl

/-- Absorbing one list after another is absorbing both (R104). -/
theorem absorbAll_append (xs ys : List Byte) : absorbAll p e (xs ++ ys) = absorbAll p (absorbAll p e xs) ys :=
  List.foldl_append

@[simp] theorem absorb_phase (b : Byte) : (absorb p e b).phase = e.phase := by
  by_cases h : e.buf.length = 63
  · rw [absorb_full p e b h]; simp
  · rw [absorb_short p e b h]

@[simp] theorem absorb_f (b : Byte) : (absorb p e b).f = e.f := by
  by_cases h : e.buf.length = 63
  · rw [absorb_full p e b h]; simp
  · rw [absorb_short p e b h]

end

@[simp] theorem absorbAll_phase (p : Params) (bs : List Byte) (e : Engine) : (absorbAll p e bs).phase = e.phase := by
  induction bs generalizing e with
  | nil => rfl
  | cons b bs ih => simp [ih]

@[simp] theorem absorbAll_f (p : Params) (bs : List Byte) (e : Engine) : (absorbAll p e bs).f = e.f := by
  induction bs generalizing e with
  | nil => rfl
  | cons b bs ih => simp [ih]

/-- Bytes that leave the buffer short of a block are only appended. -/
theorem absorbAll_short (p : Params) (bs : List Byte) (e : Engine) (h : e.buf.length + bs.length ≤ 63) :
    absorbAll p e bs = { e with buf := e.buf ++ bs } := by
  induction bs generalizing e with
  | nil => simp
  | cons b bs ih =>
    simp only [List.length_cons] at h
    rw [absorbAll_cons, absorb_short p e b (by omega), ih _ (by simp; omega)]
    simp

/-- Bytes that complete the block exactly compress it. -/
theorem absorbAll_block (p : Params) (bs : List Byte) (e : Engine) (hb : e.buf.length ≤ 63)
    (h : e.buf.length + bs.length = 64) :
    absorbAll p e bs = compressBuffer p { e with buf := e.buf ++ bs } := by
  rcases List.eq_nil_or_concat bs with rfl | ⟨xs, b, rfl⟩
  · simp at h; omega
  · simp only [List.concat_eq_append, List.length_append, List.length_cons, List.length_nil] at h
    rw [List.concat_eq_append, absorbAll_append, absorbAll_short p xs e (by omega), absorbAll_cons, absorbAll_nil,
      absorb_full _ _ _ (by simp; omega)]
    simp

/-- Where the low counter word is a multiple of 512 both carry rules test for its overflow (R107). -/
theorem counterCarries_aligned (p : Params) (t0 : Word) (h : t0.toNat % 512 = 0) :
    counterCarries p t0 (t0 + 512#32) = decide (2 ^ 32 ≤ t0.toNat + 512) := by
  have hlt := t0.isLt
  unfold counterCarries
  split
  · rw [Bool.eq_iff_iff]
    simp [← BitVec.toNat_inj, BitVec.toNat_add]
    omega
  · rfl

/-- The high counter word after an advance. -/
theorem advanceCounter_t1 (p : Params) (e : Engine) :
    (advanceCounter p e).t1 = if counterCarries p e.t0 (e.t0 + 512#32) = true then e.t1 + 1#32 else e.t1 := by
  simp only [advanceCounter]

/-- An advance adds 512 to the counter (R22, R107). -/
theorem advanceCounter_value (p : Params) (e : Engine) (h : e.t0.toNat % 512 = 0) :
    (advanceCounter p e).t1.toNat * 2 ^ 32 + (advanceCounter p e).t0.toNat =
      (e.t1.toNat * 2 ^ 32 + e.t0.toNat + 512) % 2 ^ 64 := by
  have h0 := e.t0.isLt
  have h1 := e.t1.isLt
  rw [advanceCounter_t1, advanceCounter_t0, counterCarries_aligned p e.t0 h]
  by_cases hc : 2 ^ 32 ≤ e.t0.toNat + 512
  · simp only [hc, decide_true, if_true, BitVec.toNat_add, BitVec.toNat_ofNat]; omega
  · simp only [hc, decide_false, Bool.false_eq_true, if_false, BitVec.toNat_add, BitVec.toNat_ofNat]; omega

/-- The buffer stays short of a block (R23). -/
theorem absorb_length (p : Params) (e : Engine) (b : Byte) (h : e.buf.length ≤ 63) :
    (absorb p e b).buf.length ≤ 63 := by
  by_cases h' : e.buf.length = 63
  · rw [absorb_full p e b h']; simp
  · rw [absorb_short p e b h']; simp; omega

theorem absorbAll_length (p : Params) (bs : List Byte) (e : Engine) (h : e.buf.length ≤ 63) :
    (absorbAll p e bs).buf.length ≤ 63 := by
  induction bs generalizing e with
  | nil => exact h
  | cons b bs ih => exact ih _ (absorb_length p e b h)

/-- The low counter word stays a multiple of 512 while bytes are absorbed (10_state.md R22). -/
theorem absorb_t0 (p : Params) (e : Engine) (b : Byte) (h : e.t0.toNat % 512 = 0) :
    (absorb p e b).t0.toNat % 512 = 0 := by
  by_cases h' : e.buf.length = 63
  · rw [absorb_full p e b h']; simp [BitVec.toNat_add]; omega
  · rw [absorb_short p e b h']; exact h

theorem absorbAll_t0 (p : Params) (bs : List Byte) (e : Engine) (h : e.t0.toNat % 512 = 0) :
    (absorbAll p e bs).t0.toNat % 512 = 0 := by
  induction bs generalizing e with
  | nil => exact h
  | cons b bs ih => exact ih _ (absorb_t0 p e b h)

end Sys2Proof.Machine
end

