-- ==== Sys2Proof/Laws/Ops.lean ====
section
/-! SUPPORT. Everything a shared operation can do, said once: `serve`, `inReady`, `observe`, `endNext`, and `step`. -/

namespace Sys2Proof.Machine

section
variable {α : Type} (s : State) (opc : Byte) (received : Nat) (run : α → State)

/-- A latched block refuses (60_exceptions.md R224). -/
theorem serve_latched (o : Option α) (h : s.fault = true) : s.serve opc o received run = .next s.refuse := by
  simp [State.serve, h]

/-- A tuple of the wrong shape faults (30_encoding.md R73). -/
theorem serve_mismatch (h : s.fault = false) :
    s.serve opc none received run = .next (s.raise .operandMismatch opc received) := by
  simp [State.serve, h]

/-- Otherwise the command runs. -/
theorem serve_run (a : α) (h : s.fault = false) : s.serve opc (some a) received run = .next (run a) := by
  simp [State.serve, h]

/-- The three ways a served command ends. -/
theorem serve_cases {o : Option α} {t : State} (h : s.serve opc o received run = .next t) :
    (s.fault = true ∧ t = s.refuse) ∨
    (s.fault = false ∧ o = none ∧ t = s.raise .operandMismatch opc received) ∨
    (s.fault = false ∧ ∃ a, o = some a ∧ t = run a) := by
  cases hf : s.fault
  · cases o with
    | none => rw [serve_mismatch s opc received run hf] at h; cases h; exact .inr (.inl ⟨rfl, rfl, rfl⟩)
    | some a => rw [serve_run s opc received run a hf] at h; cases h; exact .inr (.inr ⟨rfl, a, rfl, rfl⟩)
  · rw [serve_latched s opc received run o hf] at h; cases h; exact .inl ⟨rfl, rfl⟩
end

section
variable (s : State) (opc : Byte) (e : Engine) (r : Result)

/-- In phase READY the effect happens. -/
theorem inReady_ready (h : s.engine.phase = .ready) : s.inReady opc e r = { s with engine := e }.done r := by
  simp [State.inReady, h]

/-- In phase FINALIZED the command faults (60_exceptions.md R223). -/
theorem inReady_finalized (h : s.engine.phase = .finalized) :
    s.inReady opc e r = s.raise .useAfterFinalize opc 0 := by
  simp [State.inReady, h]

/-- The snapshot in phase READY (40_hash_engine.md R125). -/
theorem observe_ready (h : s.engine.phase = .ready) : s.observe = s.done (.snapshot s.snapshot) := by
  simp [State.observe, h]

/-- The snapshot in phase FINALIZED (R125). -/
theorem observe_finalized (h : s.engine.phase = .finalized) :
    s.observe = { s with draws := s.draws + 1 }.done (.snapshot (s.drawnSnapshot s.draws)) := by
  simp [State.observe, h]

/-- HE.STATE with the empty tuple observes, latched or not (60_exceptions.md R224). -/
theorem execHeState_empty (h : s.operands = []) : execHeState s = .next s.observe := by
  simp [execHeState, h, noOperands]

/-- HE.STATE with any other tuple is a command like the others. -/
theorem execHeState_nonempty (h : s.operands ≠ []) :
    execHeState s = .next (if s.fault then s.refuse else s.raise .operandMismatch 0x05#8 s.operands.length) := by
  cases ho : s.operands with
  | nil => exact absurd ho h
  | cons a l => simp [execHeState, State.serve, ho, noOperands]
end

/-- A power-on reset is a step of its own (70_reset_and_hazards.md R251). -/
theorem step_powerOn (s : State) (rest : List HostAction) (h : s.pending = .powerOn :: rest) :
    step s = .next s.powerCycle := by
  simp [step, h]

/-- A word that decodes runs as its command. -/
theorem step_command (s : State) (c : Command) (rest : List HostAction) (i : Instr)
    (h : s.pending = .command c :: rest) (hd : decode c.word = .ok i) : step s = exec i s := by
  simp [step, h, hd]

/-- A word that does not decode takes its fault (30_encoding.md R77). -/
theorem step_reject (s : State) (c : Command) (rest : List HostAction) (d : DecodeFault)
    (h : s.pending = .command c :: rest) (hd : decode c.word = .error d) : step s = .next (s.rejectWord c.word d) := by
  simp [step, h, hd]

/-- The three ways a step ends in a next state. -/
theorem step_cases {s t : State} (h : step s = .next t) :
    (∃ rest, s.pending = .powerOn :: rest ∧ t = s.powerCycle) ∨
    (∃ c rest i, s.pending = .command c :: rest ∧ decode c.word = .ok i ∧ exec i s = .next t) ∨
    (∃ c rest d, s.pending = .command c :: rest ∧ decode c.word = .error d ∧ t = s.rejectWord c.word d) := by
  cases hp : s.pending with
  | nil => simp [step, hp] at h
  | cons a rest =>
    cases a with
    | powerOn => rw [step_powerOn s rest hp] at h; cases h; exact .inl ⟨rest, rfl, rfl⟩
    | command c =>
      cases hd : decode c.word with
      | ok i => rw [step_command s c rest i hp hd] at h; exact .inr (.inl ⟨c, rest, i, rfl, hd, h⟩)
      | error d => rw [step_reject s c rest d hp hd] at h; cases h; exact .inr (.inr ⟨c, rest, d, rfl, hd, rfl⟩)

end Sys2Proof.Machine
end

