-- ==== Sys2Proof/Laws/Retargeter.lean ====
section
/-! SUPPORT. The walk (43_retarget.md R191) and the faults of DR.NEXT (R190, 60_exceptions.md R225). -/

namespace Sys2Proof.Machine

/-- The entry the walk steps to. -/
theorem skipTo_eq_some {p : Params} {v : View} {e q : Entry} : skipTo p v e = some q ↔ Skips p v e q := by
  unfold skipTo
  by_cases h : e.heightInt % p.interval ≠ 0 ∧ e.bits = encodeTarget p p.powLimit
  · rw [if_pos h]; exact ⟨fun hp => ⟨hp, h⟩, fun hs => hs.1⟩
  · rw [if_neg h]; exact ⟨fun hp => by simp at hp, fun hs => absurd hs.2 h⟩

/-- The walk's only fault. -/
theorem walk_error {p : Params} {v : View} {n : Nat} {e : Entry} {f : ChainFault}
    (h : walk p v n e = .error f) : f.1 = .chainInconsistent := by
  induction n generalizing e with
  | zero => simp [walk] at h
  | succ n ih =>
    unfold walk at h
    split at h
    · simp at h
    · split at h
      · cases h; rfl
      · exact ih h

/-- The faults of DR.NEXT, with the one detail that is fixed. -/
theorem nextDifficulty_error {p : Params} {v : View} {tip : Option Entry} {time : Int} {f : ChainFault}
    (h : nextDifficulty p v tip time = .error f) :
    f = (.missingTip, 0) ∨ f.1 = .operandRange ∨ f.1 = .missingAncestor ∨ f.1 = .chainInconsistent := by
  cases tip with
  | none => cases h; exact .inl rfl
  | some e =>
    simp only [nextDifficulty] at h
    split at h
    · cases h; simp
    · split at h
      · unfold nextInside at h
        simp only [] at h
        split at h
        · split at h
          · cases h; simp
          · split at h
            · cases h
            · simp [walk_error h]
        · cases h
      · unfold nextBoundary at h
        simp only [] at h
        split at h
        · cases h; simp
        · split at h
          · cases h; simp
          · split at h
            · cases h; simp
            · cases h

end Sys2Proof.Machine
end

