-- ==== Sys2Proof/Laws/Exec.lean ====
section
/-! SUPPORT. Everything the execution of a command can do, said once. -/

namespace Sys2Proof.Machine

/-- The ways a command ends: refused by the latch; HE.STATE's snapshot; a fault, with a record that belongs to its cause;
a result without any other effect; a write of the engine in phase READY; HE.RESET. -/
inductive Ending (i : Instr) (s : State) : State → Prop where
  | refused : s.fault = true → Ending i s s.refuse
  | observed : i = .heState → s.operands = [] → Ending i s s.observe
  | faulted (c : Cause) (d : Int) : s.fault = false → c ≠ .none → recordMatches c ⟨opcode i, d⟩ →
      Ending i s (s.raise c (opcode i) d)
  | answered (r : Result) : s.fault = false → Ending i s (s.done r)
  | absorbed (bs : List Byte) : s.fault = false → s.engine.phase = .ready →
      Ending i s ({ s with engine := absorbAll s.cfg s.engine bs }.done .done)
  | finalized (r : Result) : s.fault = false → s.engine.phase = .ready →
      Ending i s ({ s with engine := finalize s.cfg s.engine }.done r)
  | initial : i = .heReset → s.fault = false → Ending i s ({ s with engine := initialEngine s.cfg }.done .done)

/-- A served command ends as its own part does, or in a refusal, or in an OPERAND_MISMATCH. -/
theorem Ending.of_serve {α : Type} {i : Instr} {s t : State} {o : Option α} {n : Nat} {run : α → State}
    (h : s.serve (opcode i) o n run = .next t) (hr : ∀ a, s.fault = false → Ending i s (run a)) : Ending i s t := by
  rcases serve_cases s _ n run h with ⟨hf, rfl⟩ | ⟨hf, -, rfl⟩ | ⟨hf, a, -, rfl⟩
  · exact .refused hf
  · exact .faulted _ _ hf (by simp) (by simp [recordMatches])
  · exact hr a hf

/-- In phase FINALIZED the three absorbing commands fault. -/
theorem Ending.of_finalized {i : Instr} {s : State} {e : Engine} {r : Result} (hf : s.fault = false)
    (hp : s.engine.phase = .finalized) (hi : opcode i = 0x02#8 ∨ opcode i = 0x03#8 ∨ opcode i = 0x04#8) :
    Ending i s (s.inReady (opcode i) e r) := by
  rw [inReady_finalized s _ e r hp]
  exact .faulted _ _ hf (by simp) ⟨hi, rfl⟩

/-- Every command has a next state. -/
theorem exec_total (i : Instr) (s : State) : ∃ t, exec i s = .next t := by
  cases i with
  | heState =>
    by_cases h : s.operands = []
    · exact ⟨_, execHeState_empty s h⟩
    · exact ⟨_, execHeState_nonempty s h⟩
  | _ => exact ⟨_, rfl⟩

/-- DR.NEXT's end is a result or a fault that belongs to its cause. -/
theorem Ending.of_next {s : State} {tip : Option Entry} {time : Int} (hf : s.fault = false) :
    Ending .drNext s (s.endNext (nextDifficulty s.cfg s.view tip time)) := by
  cases h : nextDifficulty s.cfg s.view tip time with
  | ok c => exact .answered _ hf
  | error f =>
    refine .faulted f.1 f.2 hf ?_ ?_ <;>
      rcases nextDifficulty_error h with h | h | h | h <;> simp [h, recordMatches, opcode]

/-- The ways the execution of a command ends. -/
theorem exec_ending {i : Instr} {s t : State} (h : exec i s = .next t) : Ending i s t := by
  cases i with
  | heReset => exact .of_serve h fun _ hf => .initial rfl hf
  | heWriteb d =>
    refine .of_serve h fun _ hf => ?_
    cases hp : s.engine.phase with
    | ready => rw [inReady_ready s _ _ _ hp]; exact .absorbed [d] hf hp
    | finalized => exact .of_finalized hf hp (by simp [opcode])
  | heWrite n =>
    refine .of_serve h fun bs hf => ?_
    cases hp : s.engine.phase with
    | ready => rw [inReady_ready s _ _ _ hp]; exact .absorbed bs hf hp
    | finalized => exact .of_finalized hf hp (by simp [opcode])
  | heFinal =>
    refine .of_serve h fun _ hf => ?_
    cases hp : s.engine.phase with
    | ready => simp only []; rw [inReady_ready s _ _ _ hp]; exact .finalized _ hf hp
    | finalized => exact .of_finalized hf hp (by simp [opcode])
  | heState =>
    by_cases ho : s.operands = []
    · rw [exec, execHeState_empty s ho] at h; cases h; exact .observed rfl ho
    · rw [exec, execHeState_nonempty s ho] at h
      cases hf : s.fault <;> simp only [hf] at h <;> cases h
      · exact .faulted (i := .heState) .operandMismatch _ hf (by simp) (by simp [recordMatches])
      · exact .refused hf
  | tcDecode => exact .of_serve h fun _ hf => .answered _ hf
  | tcEncode => exact .of_serve h fun _ hf => .answered _ hf
  | powCheck => exact .of_serve h fun _ hf => .answered _ hf
  | drRetarget => exact .of_serve h fun _ hf => .answered _ hf
  | drNext => exact .of_serve h fun _ hf => .of_next hf

end Sys2Proof.Machine
end

