-- ==== Sys2Proof/Laws/Finalize.lean ====
section
/-! SUPPORT. Finalization (40_hash_engine.md R120): how much each part of the padding leaves in the buffer. -/

namespace Sys2Proof.Machine

@[simp] theorem zeros_length (k : Nat) : (zeros k).length = k := List.length_replicate

@[simp] theorem lengthBytes_length (n : Word64) : (lengthBytes n).length = 8 := rfl

section
variable (p : Params) (e : Engine)

theorem padMarker_eq (h : e.buf.length = 55) :
    padMarker p e = { lowerCounter 8 e with buf := e.buf ++ [markByte p] } := by
  rw [padMarker, absorb_short _ _ _ (by simp [h])]; rfl

theorem padMergedTail_eq (h : e.buf.length = 55) :
    padMergedTail p e = { lowerCounter 8 e with buf := e.buf ++ [p.padMerged] } := by
  rw [padMergedTail, absorb_short _ _ _ (by simp [h])]; rfl

/-- The tail of a buffer of fewer than 55 bytes. -/
theorem padShortTail_eq (h : e.buf.length < 55) :
    padShortTail p e =
      { e with t0 := e.t0 - BitVec.ofNat 32 (440 - 8 * e.buf.length) - 8#32, f := e.f || e.buf.length == 0,
               buf := e.buf ++ (stopByte p :: zeros (54 - e.buf.length) ++ [markByte p]) } := by
  have key : ∀ x : Engine, x.buf = e.buf →
      padMarker p (absorbAll p (absorb p (lowerCounter (440 - 8 * e.buf.length) x) (stopByte p))
        (zeros (55 - (absorb p (lowerCounter (440 - 8 * e.buf.length) x) (stopByte p)).buf.length))) =
      { x with t0 := x.t0 - BitVec.ofNat 32 (440 - 8 * e.buf.length) - 8#32,
               buf := e.buf ++ (stopByte p :: zeros (54 - e.buf.length) ++ [markByte p]) } := by
    intro x hx
    rw [absorb_short p _ _ (by simp [hx]; omega), absorbAll_short p _ _ (by simp [hx]; omega),
      padMarker_eq p _ (by simp [hx]; omega)]
    simp [lowerCounter, hx]
  unfold padShortTail
  by_cases h0 : e.buf.length = 0
  · simp only [h0, if_true] at key ⊢
    refine (key (setFinal e) (setFinal_buf e)).trans ?_
    simp [setFinal]
  · simp only [h0, if_false]
    refine (key e rfl).trans ?_
    simp [h0]

/-- The first block of the tail of a buffer of 56 to 63 bytes is compressed whole. -/
theorem padLongTail_eq (h1 : 56 ≤ e.buf.length) (h2 : e.buf.length ≤ 63) :
    padLongTail p e =
      let x := compressBuffer p { lowerCounter (512 - 8 * e.buf.length) e with
        buf := e.buf ++ (stopByte p :: zeros (63 - e.buf.length)) }
      { x with t0 := x.t0 - 440#32 - 8#32, f := true, buf := zeros 55 ++ [markByte p] } := by
  have first : ∀ x, x = absorb p (lowerCounter (512 - 8 * e.buf.length) e) (stopByte p) →
      absorbAll p x (zerosToEmpty x) = compressBuffer p { lowerCounter (512 - 8 * e.buf.length) e with
        buf := e.buf ++ (stopByte p :: zeros (63 - e.buf.length)) } := by
    rintro x rfl
    by_cases h : e.buf.length = 63
    · rw [absorb_full p _ _ (by simpa using h)]
      simp [zerosToEmpty, h, zeros]
    · rw [absorb_short p _ _ (by simpa using h)]
      simp only [zerosToEmpty, lowerCounter_buf, List.length_append, List.length_cons, List.length_nil]
      rw [if_neg (by omega), absorbAll_block p _ _ (by simp; omega) (by simp; omega)]
      congr 2
      simp only [List.append_assoc, List.cons_append, List.nil_append, show 64 - (e.buf.length + (0 + 1)) = 63 - e.buf.length by omega]
  unfold padLongTail
  simp only []
  rw [first _ rfl, absorbAll_short p _ _ (by simp), padMarker_eq p _ (by simp)]
  simp [lowerCounter, setFinal]

/-- Before the length bytes the buffer holds 56 bytes (90_conflicts.md C2). -/
theorem padTail_length (h : e.buf.length ≤ 63) : (padTail p e).buf.length = 56 := by
  unfold padTail
  split
  · rw [padMergedTail_eq p e ‹_›]; simp; omega
  · split
    · rw [padShortTail_eq p e ‹_›]; simp; omega
    · rw [padLongTail_eq p e (by omega) h]; simp

/-- The last length byte completes the last block. -/
theorem finalize_eq (h : e.buf.length ≤ 63) :
    finalize p e =
      { compressBuffer p { lowerCounter 64 (padTail p e) with
          buf := (padTail p e).buf ++ lengthBytes (messageBits e) } with phase := .finalized } := by
  have hl := padTail_length p e h
  rw [finalize, absorbAll_block p _ _ (by simp; omega) (by simp; omega)]
  simp

theorem finalize_buf (h : e.buf.length ≤ 63) : (finalize p e).buf = [] := by
  rw [finalize_eq p e h]; simp

@[simp] theorem finalize_phase : (finalize p e).phase = .finalized := rfl

end

end Sys2Proof.Machine
end

