-- ==== Sys2Proof/Laws/Word.lean ====
section
/-! SUPPORT. The fields of a command word put together from an opcode, a reserved byte and an immediate
(30_encoding.md R71). -/

namespace Sys2Proof

/-- Each bit of such a word, by the field it falls into. -/
theorem getLsbD_fields (a b : Byte) (c : BitVec 16) (i : Nat) :
    (a ++ b ++ c).getLsbD i =
      if i < 16 then c.getLsbD i else if i - 16 < 8 then b.getLsbD (i - 16) else a.getLsbD (i - 16 - 8) := by
  rw [BitVec.getLsbD_append, BitVec.getLsbD_append]

theorem opcField_fields (a b : Byte) (c : BitVec 16) : opcField (a ++ b ++ c) = a := by
  ext i hi
  rw [opcField, BitVec.getElem_extractLsb']
  refine (getLsbD_fields a b c (24 + i)).trans ?_
  rw [if_neg (by omega), if_neg (by omega), show 24 + i - 16 - 8 = i by omega, BitVec.getLsbD_eq_getElem]

theorem rsvField_fields (a b : Byte) (c : BitVec 16) : rsvField (a ++ b ++ c) = b := by
  ext i hi
  rw [rsvField, BitVec.getElem_extractLsb']
  refine (getLsbD_fields a b c (16 + i)).trans ?_
  rw [if_neg (by omega), if_pos (by omega), show 16 + i - 16 = i by omega, BitVec.getLsbD_eq_getElem]

theorem imm16Field_fields (a b : Byte) (c : BitVec 16) : imm16Field (a ++ b ++ c) = c := by
  ext i hi
  rw [imm16Field, BitVec.getElem_extractLsb']
  refine (getLsbD_fields a b c (0 + i)).trans ?_
  rw [if_pos (by omega), Nat.zero_add, BitVec.getLsbD_eq_getElem]

/-- A word is its fields. -/
theorem word_eq_fields (w : Word) : w = opcField w ++ rsvField w ++ imm16Field w := by
  ext i hi
  refine (BitVec.getLsbD_eq_getElem hi).symm.trans (Eq.trans ?_ (BitVec.getLsbD_eq_getElem hi))
  refine Eq.trans ?_ (getLsbD_fields (opcField w) (rsvField w) (imm16Field w) i).symm
  simp only [opcField, rsvField, imm16Field, BitVec.getLsbD_extractLsb']
  split
  · simp [*]
  · split
    · simp only [*, decide_true, Bool.true_and]; congr 1; omega
    · rw [decide_eq_true (show i - 16 - 8 < 8 by omega), Bool.true_and]; congr 1; omega

end Sys2Proof
end

