-- ==== Sys2Proof/Laws/PerInstr.lean ====
section
/-! SUPPORT. Families of lemmas with one member per command. -/

namespace Sys2Proof.Laws

/-- Family WordFields: the word of a command carries its opcode in `OPC`, zero in `RSV` and its immediate in `IMM16`
(30_encoding.md R71, R75). -/
def WordFields.Statement (i : Instr) : Prop :=
  opcField (encode i) = opcode i ∧ rsvField (encode i) = 0x00#8 ∧ imm16Field (encode i) = immediate i

/-- The word of a command is put together from its fields. -/
theorem wordFields_of_encode (i : Instr) : WordFields.Statement i :=
  ⟨opcField_fields _ _ _, rsvField_fields _ _ _, imm16Field_fields _ _ _⟩

theorem WordFields.heReset : WordFields.Statement .heReset := wordFields_of_encode _
theorem WordFields.heWriteb (data : Byte) : WordFields.Statement (.heWriteb data) := wordFields_of_encode _
theorem WordFields.heWrite (n : BitVec 16) : WordFields.Statement (.heWrite n) := wordFields_of_encode _
theorem WordFields.heFinal : WordFields.Statement .heFinal := wordFields_of_encode _
theorem WordFields.heState : WordFields.Statement .heState := wordFields_of_encode _
theorem WordFields.tcDecode : WordFields.Statement .tcDecode := wordFields_of_encode _
theorem WordFields.tcEncode : WordFields.Statement .tcEncode := wordFields_of_encode _
theorem WordFields.powCheck : WordFields.Statement .powCheck := wordFields_of_encode _
theorem WordFields.drRetarget : WordFields.Statement .drRetarget := wordFields_of_encode _
theorem WordFields.drNext : WordFields.Statement .drNext := wordFields_of_encode _

end Sys2Proof.Laws
end

