-- ==== Sys2Proof/Laws/System.lean ====
section
/-! SUPPORT. What reading and stepping a system of instances does to the configuration they share (10_state.md R33). -/

namespace Sys2Proof.Machine

/-- Every instance has the shared configuration. -/
theorem member_cfg {sys : System} {i : Nat} {s : State} (h : sys.member i = some s) : s.cfg = sys.shared := by
  simp only [System.member, Option.map_eq_some_iff] at h
  obtain ⟨_, _, rfl⟩ := h
  rfl

/-- A step of an instance leaves the shared configuration. -/
@[simp] theorem systemStep_shared (sys : System) (i : Nat) : (systemStep sys i).shared = sys.shared := by
  unfold systemStep
  split
  · rfl
  · split <;> rfl

/-- A step of one instance leaves every other. -/
theorem systemStep_member_ne {sys : System} {i j : Nat} (h : i ≠ j) :
    (systemStep sys i).member j = sys.member j := by
  unfold systemStep
  split
  · rfl
  · split
    · simp [System.member, List.getElem?_set_ne h]
    · rfl

end Sys2Proof.Machine
end

