-- ==== Sys2Proof/Tests/Slice0.lean ====
section
/-! SUPPORT. Tests: what the well-formedness checks refuse, words written out from 30_encoding.md R76, values of
95_test_vectors.md on single steps, and for each statement with hypotheses a witness that meets them. -/

namespace Sys2Proof.Tests

open Sys2Proof Sys2Proof.Machine

/-! ## States to test on -/

/-- The configuration the vectors of 95_test_vectors.md state: `POW_LIMIT = 2^236 - 1`. -/
def demoParams : Params :=
  { instanceParams with powLimit := 0xFFFFF#256 <<< 216 ||| (1#256 <<< 216) - 1#256, allowMinDifficulty := true,
                        noRetargeting := false }

/-- A fresh instance. -/
def demo : State := State.powerOn demoParams

/-- `n` entries of height, time 180 times the height and the same bits, each with its previous entry; the last is
`tip`. -/
def chain (n : Nat) (bits : Word) (tip : Entry) : View :=
  ⟨(List.range n).map (fun h =>
      ⟨BitVec.ofNat 32 h, BitVec.ofNat 64 (180 * h), bits, if h = 0 then none else some (h - 1), []⟩) ++ [tip]⟩

/-- Chain C of 95_test_vectors.md 4.5, as far as DR.NEXT asks. -/
def chainC : View := chain 19 0x1d00ffff#32 ⟨19#32, 3000#64, 0x1d00ffff#32, some 18, [(0, 0)]⟩

/-- Heights 0 to 23, all of the minimum difficulty (chain B of 95_test_vectors.md 4.5). -/
def chainB : View := chain 23 0x1e0fffff#32 ⟨23#32, 4140#64, 0x1e0fffff#32, some 22, []⟩

/-- A state whose next command is `i`. -/
def State.given (s : State) (v : View) (i : Instr) (ops : List Operand) : State :=
  { s with pending := [.command (issueOf v i ops)] }

/-- A fresh instance whose next command is `i`, over no view. -/
def given (i : Instr) (ops : List Operand) : State := State.given demo ⟨[]⟩ i ops

/-- A fresh instance with `bs` held. -/
def holding (bs : List Byte) : State := { demo with engine := { demo.engine with buf := bs } }

/-- An instance after HE.FINAL. -/
def finalized : State := { demo with engine := { demo.engine with phase := .finalized } }

/-- An instance latched by `dr.next none, 0`, with `bs` held (program P5). -/
def latched (bs : List Byte) : State :=
  { holding bs with fault := true, cause := .missingTip, info := ⟨0x31#8, 0⟩ }

/-- What an outcome shows on the result port. -/
def shown (o : Host.Outcome State Fault Refusal) : Option Completion :=
  match o with
  | .next t => t.result
  | _ => none

/-- The latch and its record after an outcome. -/
def latch (o : Host.Outcome State Fault Refusal) : Option (Bool × Cause × Info) :=
  match o with
  | .next t => some (t.fault, t.cause, t.info)
  | _ => none

/-- The engine after an outcome. -/
def engineOf (o : Host.Outcome State Fault Refusal) : Option Engine :=
  match o with
  | .next t => some t.engine
  | _ => none

/-- 32 bytes that print as a hexadecimal number. -/
def hex32 (n : Nat) : List Byte := (leBytes 32 n).reverse

/-- The bytes of "abc". -/
def abc : List Byte := [0x61#8, 0x62#8, 0x63#8]

/-! ## Well-formedness -/

theorem test_demoParams_valid : demoParams.Valid := by decide +kernel
theorem test_repeated_sigma_refused :
    ¬ ({ demoParams with sigma := demoParams.sigma.set 3 (sigmaRow3.set 0 9) } : Params).Valid := by decide +kernel
theorem test_zero_powLimit_refused : instantiate { demoParams with powLimit := 0#256 } = none := by decide +kernel
theorem test_fifteen_rounds_refused : instantiate { demoParams with nrounds := 15 } = none := by decide +kernel
theorem test_broken_timespan_refused : instantiate { demoParams with timespan := 3601 } = none := by decide +kernel
theorem test_zero_interval_refused :
    instantiate { demoParams with interval := 0, timespan := 0 } = none := by decide +kernel

theorem test_negative_spacing_refused :
    instantiate { demoParams with spacing := -180, timespan := -3600 } = none := by decide +kernel
theorem test_wide_spacing_refused :
    instantiate { demoParams with interval := 1, spacing := 2 ^ 63, timespan := 2 ^ 63 } = none := by decide +kernel
theorem test_largest_spacing_taken :
    ({ demoParams with interval := 1, spacing := 2 ^ 63 - 1, timespan := 2 ^ 63 - 1 } : Params).Valid := by
  decide +kernel
theorem test_wide_timespan_refused :
    instantiate { demoParams with interval := 2, spacing := 2 ^ 62, timespan := 2 ^ 63 } = none := by decide +kernel

theorem test_wellFormed_write : (issueOf ⟨[]⟩ (.heWrite 3#16) [.bytes abc]).wellFormed = true := by decide
theorem test_short_write_illFormed : (issueOf ⟨[]⟩ (.heWrite 4#16) [.bytes abc]).wellFormed = false := by decide
theorem test_operand_of_other_kind_illFormed :
    (issueOf ⟨[]⟩ .tcEncode [.u32 0#32]).wellFormed = false := by decide
theorem test_extra_operand_illFormed : (issueOf ⟨[]⟩ .heFinal [.u32 0#32]).wellFormed = false := by decide
theorem test_illegal_word_illFormed : (⟨0x06000000#32, [], ⟨[]⟩⟩ : Command).wellFormed = false := by decide

theorem test_chainC_honest : chainC.Honest := by decide
theorem test_wrong_previous_height_dishonest :
    ¬ (View.mk [⟨0#32, 0#64, 0#32, none, []⟩, ⟨2#32, 0#64, 0#32, some 0, []⟩]).Honest := by decide
theorem test_wrong_ancestor_height_dishonest :
    ¬ (View.mk [⟨0#32, 0#64, 0#32, none, []⟩, ⟨1#32, 0#64, 0#32, some 0, [(1, 0)]⟩]).Honest := by decide
theorem test_negative_time_dishonest : ¬ (View.mk [⟨0#32, BitVec.ofInt 64 (-1), 0#32, none, []⟩]).Honest := by decide
theorem test_late_time_dishonest : ¬ (View.mk [⟨0#32, 0x100000000#64, 0#32, none, []⟩]).Honest := by decide
theorem test_dangling_reference_dishonest : ¬ (View.mk [⟨1#32, 0#64, 0#32, some 7, []⟩]).Honest := by decide

/-! ## Command words, written out from the bit patterns of 30_encoding.md R76 -/

theorem test_word_heReset : decode 0b00000001000000000000000000000000#32 = .ok .heReset := by decide
theorem test_word_heWriteb : decode 0b00000010000000000000000001100001#32 = .ok (.heWriteb 0x61#8) := by decide
theorem test_word_heWriteb_max : decode 0b00000010000000000000000011111111#32 = .ok (.heWriteb 0xFF#8) := by decide
theorem test_word_heWrite : decode 0b00000011000000000000000001010000#32 = .ok (.heWrite 80#16) := by decide
theorem test_word_heWrite_max : decode 0b00000011000000001111111111111111#32 = .ok (.heWrite 65535#16) := by decide
theorem test_word_heFinal : decode 0b00000100000000000000000000000000#32 = .ok .heFinal := by decide
theorem test_word_heState : decode 0b00000101000000000000000000000000#32 = .ok .heState := by decide
theorem test_word_tcDecode : decode 0b00010000000000000000000000000000#32 = .ok .tcDecode := by decide
theorem test_word_tcEncode : decode 0b00010001000000000000000000000000#32 = .ok .tcEncode := by decide
theorem test_word_powCheck : decode 0b00100000000000000000000000000000#32 = .ok .powCheck := by decide
theorem test_word_drRetarget : decode 0b00110000000000000000000000000000#32 = .ok .drRetarget := by decide
theorem test_word_drNext : decode 0b00110001000000000000000000000000#32 = .ok .drNext := by decide
theorem test_words_encode :
    encode (.heWriteb 0x61#8) = 0x02000061#32 ∧ encode (.heWrite 80#16) = 0x03000050#32 ∧
    encode .drRetarget = 0x30000000#32 := by decide
/-- The first byte of a link is the word's least significant one (R71). -/
theorem test_link_order : decodeLink [0x50#8, 0x00#8, 0x00#8, 0x03#8] = some (.ok (.heWrite 80#16), []) := by decide

/-- The words of 95_test_vectors.md 4.6. -/
theorem test_words_refused :
    decode 0x00000000#32 = .error .illegalOpcode ∧ decode 0x06000000#32 = .error .illegalOpcode ∧
    decode 0x01010000#32 = .error .reservedNonzero ∧ decode 0x04000001#32 = .error .reservedNonzero ∧
    decode 0x02000161#32 = .error .reservedNonzero := by decide
/-- R77: the opcode is checked first. -/
theorem test_opcode_before_reserved : decode 0xFFFFFFFF#32 = .error .illegalOpcode := by decide
theorem test_table_word :
    decodeTableWord 32 0x31000000 = some .drNext ∧ decodeTableWord 32 0x31000001 = none := by decide
theorem test_reset_runs_table_word :
    shown (step (State.reset.withFetchWord 32 0x02000061)) = some (.result .done) := by decide

/-! ## Single steps: values of 95_test_vectors.md -/

theorem test_reset_status : State.reset.statusWord = 0#32 := by decide
theorem test_nothing_issued : step State.reset = .refused .noCommand := rfl

theorem test_heReset_engine :
    engineOf (exec .heReset (State.given finalized ⟨[]⟩ .heReset [])) = some demo.engine := by decide
theorem test_heReset_in_latch_refused :
    shown (exec .heReset (State.given (latched []) ⟨[]⟩ .heReset [])) = some .refused := by decide

/-- P1, first command. -/
theorem test_heWriteb_appends :
    (engineOf (exec (.heWriteb 0x61#8) (given (.heWriteb 0x61#8) []))).map (·.buf) = some [0x61#8] := by decide
/-- P4, seventh command. -/
theorem test_heWriteb_after_final :
    latch (exec (.heWriteb 0x62#8) (State.given finalized ⟨[]⟩ (.heWriteb 0x62#8) [])) =
      some (true, .useAfterFinalize, ⟨0x02#8, 0⟩) := by decide

/-- 4.6: a word of 80 bytes with 79. -/
theorem test_heWrite_short :
    latch (exec (.heWrite 80#16) (given (.heWrite 80#16) [.bytes (zeros 79)])) =
      some (true, .operandMismatch, ⟨0x03#8, 79⟩) := by decide
/-- 4.6: no bytes. -/
theorem test_heWrite_nothing :
    shown (exec (.heWrite 0#16) (given (.heWrite 0#16) [])) = some (.result .done) := by decide
/-- 3.3: after one block of zeros. -/
theorem test_heWrite_block :
    (engineOf (exec (.heWrite 64#16) (given (.heWrite 64#16) [.bytes (zeros 64)]))).map
        (fun e => (e.h.toList, e.t0, e.t1, e.buf)) =
      some ([0x20fb1e73#32, 0x9cdfc64d#32, 0x8ce2ac12#32, 0xc0662485#32,
             0xcd3e849a#32, 0x3dfbdd5f#32, 0x43fdc204#32, 0x5ceddb70#32], 512#32, 0#32, []) := by
  decide +kernel

/-- 1.1: the digest of "abc". -/
theorem test_heFinal_abc :
    shown (exec .heFinal (State.given (holding abc) ⟨[]⟩ .heFinal [])) =
      some (.result (.digest (hex32 0xb8fe1bf5f0cba2e8e8cb3486320e6f82f209d056d9867023320c86d01f7a437b))) := by
  decide +kernel
/-- Section 2: a published BLAKE-256 digest, of one byte 0x00. -/
theorem test_heFinal_published :
    digestBytes (finalize { demoParams with profile := .blake256 } { demo.engine with buf := [0x00#8] }).h =
      hex32 0x0ce8d4ef4dd7cd8d62dfded9d4edb0a774ae6a41929a74da23109e8f11139c87 := by
  decide +kernel

/-- P5, third command. -/
theorem test_heState_latched :
    shown (exec .heState (State.given (latched abc) ⟨[]⟩ .heState [])) =
      some (.result (.snapshot ⟨0x01060003#32, candidateIV, 0#32, 0#32, abc⟩)) := by decide

/-- 4.1: an overflow wraps and reports. -/
theorem test_tcDecode_overflow :
    shown (exec .tcDecode (given .tcDecode [.u32 0x21010000#32])) = some (.result (.target ⟨0#256, false, true⟩)) := by
  decide
/-- 4.1: the sign flag over a shifted mantissa. -/
theorem test_tcDecode_negative :
    shown (exec .tcDecode (given .tcDecode [.u32 0x01fedcba#32])) =
      some (.result (.target ⟨0x7E#256, true, false⟩)) := by decide

/-- 4.2: a mantissa whose top bit would be the sign flag. -/
theorem test_tcEncode_sign :
    shown (exec .tcEncode (given .tcEncode [.u256 0x80#256])) = some (.result (.compact 0x02008000#32)) := by decide
/-- 4.2: the largest target. -/
theorem test_tcEncode_max :
    shown (exec .tcEncode (given .tcEncode [.u256 (BitVec.allOnes 256)])) =
      some (.result (.compact 0x2100ffff#32)) := by decide

/-- `DECODE(0x1d00ffff)` as a HASH operand (1.8): 26 zero bytes, `ff ff`, 4 zero bytes; `low` is byte 0. -/
def boundaryHash (low : Byte) : List Byte := low :: zeros 25 ++ [0xff#8, 0xff#8] ++ zeros 4

/-- 1.8: equal accepts. -/
theorem test_powCheck_equal :
    shown (exec .powCheck (given .powCheck [.bytes (boundaryHash 0x00#8), .u32 0x1d00ffff#32])) =
      some (.result (.verdict true)) := by decide
/-- 1.8: target + 1 rejects. -/
theorem test_powCheck_above :
    shown (exec .powCheck (given .powCheck [.bytes (boundaryHash 0x01#8), .u32 0x1d00ffff#32])) =
      some (.result (.verdict false)) := by decide

/-- 4.4, first row. -/
theorem test_drRetarget_up :
    shown (exec .drRetarget (given .drRetarget [.u32 0x1d00ffff#32, .i64 1000#64, .i32 3000#32])) =
      some (.result (.compact 0x1d00de93#32)) := by decide
/-- 4.4: a negative span clamps (4.3), as 600 does. -/
theorem test_drRetarget_negative_span :
    shown (exec .drRetarget (given .drRetarget [.u32 0x1d00ffff#32, .i64 (BitVec.ofInt 64 (-5000)), .i32 4000#32])) =
      some (.result (.compact 0x1d00f887#32)) := by decide

/-- P3. -/
theorem test_drNext_boundary :
    shown (exec .drNext (State.given demo chainC .drNext [.entry (some 19), .i64 3100#64])) =
      some (.result (.compact 0x1d00de93#32)) := by decide
/-- P5, first command. -/
theorem test_drNext_none :
    latch (exec .drNext (given .drNext [.entry none, .i64 0#64])) = some (true, .missingTip, ⟨0x31#8, 0⟩) := by decide

/-- P2: the assembler's text and the command it issues. -/
theorem test_text_write :
    (parseText "he.write 3, \"abc\" ; three bytes".toList).bind (assemble ⟨[]⟩) =
      some ⟨[⟨0x03000003#32, [.bytes abc], ⟨[]⟩⟩], none⟩ := by decide
theorem test_text_dr_next :
    (parseText "dr.next @19, 3100".toList).bind (assemble chainC) =
      some ⟨[⟨0x31000000#32, [.entry (some 19), .i64 3100#64], chainC⟩], none⟩ := by decide
/-- A number that R79 writes as hex may be decimal, and a comment alone issues nothing (log 21). -/
theorem test_text_open_points :
    (parseText "tc.encode 18".toList).bind (assemble ⟨[]⟩) =
      (parseText "tc.encode 0x12".toList).bind (assemble ⟨[]⟩) ∧
    parseText "; nothing".toList = none := by decide
theorem test_text_short_header_refused :
    (parseText "hash80 zeros(79)".toList).bind (assemble ⟨[]⟩) = none := by decide

/-! ## Witnesses: for each statement with hypotheses, a state and operands that meet them -/

/-- A command that is no command word. -/
def wordOnly (w : Word) : Command := ⟨w, [], ⟨[]⟩⟩

theorem test_witness_EncodeOfDecode : decode 0x0200FFFF#32 ≠ .ok (.heWriteb 0xFF#8) ∧
    decode 0x020000FF#32 = .ok (.heWriteb 0xFF#8) := by decide
/-- The last word of a row and the first past it. -/
theorem test_witness_OpcodeRowsSelect :
    ⟨"HE.WRITEB", 0x02000000#32, 0xFFFFFF00#32⟩ ∈ opcodeRows ∧ 0x020000FF#32 &&& 0xFFFFFF00#32 = 0x02000000#32 ∧
    0x02000100#32 &&& 0xFFFFFF00#32 ≠ 0x02000000#32 := by decide
/-- One word for each clause. -/
theorem test_witness_DecodeCheckOrder :
    opcField 0x06FF0000#32 = 0x06#8 ∧ (opcField 0x03010000#32 = 0x03#8 ∧ rsvField 0x03010000#32 ≠ 0#8) ∧
    (rsvField 0x02000100#32 = 0#8 ∧ (imm16Field 0x02000100#32).extractLsb' 8 8 ≠ 0#8) ∧
    (rsvField 0x04000001#32 = 0#8 ∧ imm16Field 0x04000001#32 ≠ 0#16) ∧
    (rsvField 0x0300FFFF#32 = 0#8 ∧ opcField 0x0300FFFF#32 = 0x03#8) := by decide
theorem test_witness_TupleBytesReadBack :
    let ops := [Operand.u32 0xFFFFFFFF#32, .i64 (BitVec.ofInt 64 (-1)), .i32 0x80000000#32]
    tupleFits (tupleShape .drRetarget) ops = true ∧ (tupleBytes ops).map List.length = some 16 := by decide
/-- A hash operand of 32 bytes and one of the HE.WRITE of no bytes. -/
theorem test_witness_TupleBytesReadBack_bytes :
    tupleFits (tupleShape .powCheck) [.bytes (zeros 32), .u32 1#32] = true ∧
    tupleBytes [.bytes (zeros 32), .u32 1#32] = some (zeros 32 ++ [1#8, 0#8, 0#8, 0#8]) ∧
    tupleFits (tupleShape (.heWrite 0#16)) [.bytes []] = true := by decide

theorem test_witness_StepRunsDecodedCommand :
    ∃ c rest, (given .tcDecode [.u32 7#32]).pending = .command c :: rest ∧ decode c.word = .ok .tcDecode :=
  ⟨_, _, rfl, by decide⟩
theorem test_witness_BadWordTakesItsFault :
    let s := { demo with pending := [.command (wordOnly 0x06000000#32)] }
    s.fault = false ∧ decode (wordOnly 0x06000000#32).word = .error .illegalOpcode ∧
    latch (step s) = some (true, .illegalOpcode, ⟨0x06#8, 0⟩) := by decide
theorem test_witness_BadWordTakesItsFault_reserved :
    let s := { demo with pending := [.command (wordOnly 0x01010000#32)] }
    s.fault = false ∧ decode (wordOnly 0x01010000#32).word = .error .reservedNonzero ∧
    latch (step s) = some (true, .reservedNonzero, ⟨0x01#8, 0x010000⟩) := by decide
theorem test_witness_EveryActionHasStep : (given .heFinal []).pending ≠ [] := by decide
theorem test_witness_LatchedBlockRefuses :
    (latched []).fault = true ∧ ¬ ((wordOnly 0x04000000#32).word = 0x05000000#32 ∧ (wordOnly 0x04000000#32).operands = []) ∧
    shown (step { latched [] with pending := [.command (wordOnly 0x04000000#32)] }) = some .refused := by decide
theorem test_witness_OnlyPowerOnClearsLatch :
    ∃ t, step { latched [] with pending := [.command (wordOnly 0x01000000#32)] } = .next t ∧ t.fault = true :=
  ⟨_, rfl, rfl⟩
theorem test_witness_OnlyPowerOnClearsLatch_powerOn :
    { latched [] with pending := [.powerOn] }.pending = [HostAction.powerOn] := rfl
theorem test_witness_ResetTable : (State.given finalized ⟨[]⟩ .heReset []).fault = false ∧
    (State.given finalized ⟨[]⟩ .heReset []).operands = [] := by decide
theorem test_witness_StepKeepsInvariant :
    (given (.heWriteb 1#8) []).Inv ∧ ∃ t, step (given (.heWriteb 1#8) []) = .next t :=
  ⟨⟨by decide, by decide, rfl⟩, _, rfl⟩
/-- The boundary of the invariant: 63 bytes held, the byte that fills the block pending. -/
theorem test_witness_StepKeepsInvariant_full : (State.given (holding (zeros 63)) ⟨[]⟩ (.heWriteb 1#8) []).Inv :=
  ⟨by decide, by decide, rfl⟩
theorem test_witness_StepKeepsConfiguration : ∃ t, step (given .heState []) = .next t := ⟨_, rfl⟩
theorem test_witness_FaultsArePrecise :
    (given .drNext [.entry none, .i64 0#64]).fault = false ∧
    ∃ t, exec .drNext (given .drNext [.entry none, .i64 0#64]) = .next t ∧ t.fault = true := ⟨rfl, _, rfl, rfl⟩
theorem test_witness_WrongTupleFaults :
    tupleFits (tupleShape .tcEncode) (given .tcEncode []).operands = false ∧
    tupleFits (tupleShape .heState) (given .heState [.u32 0#32]).operands = false := by decide
/-- One byte short and one too many. -/
theorem test_witness_WrongTupleFaults_bytes :
    (given (.heWrite 2#16) [.bytes [1#8]]).operands = [.bytes [1#8]] ∧ [1#8].length ≠ (2#16).toNat ∧
    [1#8].length ≠ (0#16).toNat := by decide
/-- HE.WRITE with an operand of another kind, and of no bytes with none; DR.NEXT with a reference past the view. -/
theorem test_witness_OpenTuplesAnswered :
    tupleFits (tupleShape (.heWrite 1#16)) (given (.heWrite 1#16) [.u32 0#32, .bytes abc]).operands = false ∧
    tupleFits (tupleShape (.heWrite 0#16)) (given (.heWrite 0#16) [.u32 0#32]).operands = false ∧
    tupleFits (tupleShape (.heWrite 1#16)) (given (.heWrite 1#16) []).operands = false ∧ 1#16 ≠ 0#16 ∧
    (given (.heWrite 0#16) []).engine.phase = .ready ∧
    (State.given demo chainC .drNext [.entry (some 20), .i64 0#64]).view.entry 20 = none := by decide
theorem test_witness_OtherUnitsIgnoreEngine :
    ∃ t, exec .tcDecode (State.given finalized ⟨[]⟩ .tcDecode [.u32 7#32]) = .next t := ⟨_, rfl⟩

theorem test_witness_HeResetResult : (given .heReset []).fault = false ∧ (given .heReset []).operands = [] := by decide
theorem test_witness_HeResetResult_back :
    finalized.engine.phase = .finalized ∧
    ∃ t, exec .heReset (State.given finalized ⟨[]⟩ .heReset []) = .next t ∧ t.engine.phase = .ready := ⟨rfl, _, rfl, rfl⟩
theorem test_witness_HeResetIdempotent : finalized.fault = false := rfl
theorem test_witness_HeWritebResult :
    let s := State.given (holding (zeros 62)) ⟨[]⟩ (.heWriteb 1#8) []
    s.fault = false ∧ s.operands = [] ∧ s.engine.phase = .ready ∧ s.engine.buf.length < 63 := by decide
theorem test_witness_HeWritebResult_full :
    let s := State.given (holding (zeros 63)) ⟨[]⟩ (.heWriteb 1#8) []
    s.fault = false ∧ s.operands = [] ∧ s.engine.phase = .ready ∧ s.engine.buf.length = 63 := by decide
theorem test_witness_HeWriteResult :
    let s := given (.heWrite 3#16) [.bytes abc]
    s.fault = false ∧ s.operands = [.bytes abc] ∧ abc.length = (3#16).toNat ∧ s.engine.phase = .ready := by decide
theorem test_witness_HeWriteResult_empty :
    let s := given (.heWrite 0#16) [.bytes []]
    s.fault = false ∧ s.operands = [.bytes []] ∧ s.engine.phase = .ready := by decide
theorem test_witness_StreamingEquivalence :
    let pieces := [Piece.byte 0x61#8, .block [], .block [0x62#8, 0x63#8]]
    demo.fault = false ∧ demo.engine.phase = .ready ∧ pieces ≠ [] ∧ (∀ x ∈ pieces, x.Carried) ∧
    messageOf pieces = abc := by decide
theorem test_witness_CarryRulesAgree : ({ demo.engine with t0 := 0xFFFFFE00#32 } : Engine).t0.toNat % 512 = 0 := by decide
theorem test_witness_CounterCountsBlocks :
    let pieces := [Piece.byte 0#8, .block (zeros 63)]
    (∀ x ∈ pieces, x.Carried) ∧ (messageOf pieces).length = 64 * 1 := by decide
/-- Fill lengths 0, 54 and 55. -/
theorem test_witness_HeFinalOneBlock :
    ∀ n ∈ [0, 54, 55],
      let s := State.given (holding (zeros n)) ⟨[]⟩ .heFinal []
      s.fault = false ∧ s.operands = [] ∧ s.engine.phase = .ready ∧ s.engine.t0.toNat % 512 = 0 ∧
      s.engine.buf.length ≤ 55 := by decide
/-- Fill lengths 56 and 63. -/
theorem test_witness_HeFinalTwoBlocks :
    ∀ n ∈ [56, 63],
      let s := State.given (holding (zeros n)) ⟨[]⟩ .heFinal []
      s.fault = false ∧ s.operands = [] ∧ s.engine.phase = .ready ∧ s.engine.t0.toNat % 512 = 0 ∧
      56 ≤ s.engine.buf.length ∧ s.engine.buf.length ≤ 63 := by decide
theorem test_witness_HalfRoundOrderFree :
    (groups.take 4).reverse.Perm (groups.take 4) ∧ (groups.drop 4).reverse.Perm (groups.drop 4) :=
  ⟨List.reverse_perm _, List.reverse_perm _⟩
theorem test_witness_CounterAndFlagByProfile :
    demoParams.profile = .doc ∧ ({ demoParams with profile := .blake256 } : Params).profile = .blake256 := by decide
theorem test_witness_MessageWordsByProfile : (zeros 64).length = 64 := by decide
theorem test_witness_UseAfterFinalizeFaults :
    (∀ i ∈ [Instr.heWriteb 1#8, .heFinal],
      let s := State.given finalized ⟨[]⟩ i []
      s.fault = false ∧ s.engine.phase = .finalized ∧ tupleFits (tupleShape i) s.operands = true) ∧
    (let s := State.given finalized ⟨[]⟩ (.heWrite 1#16) [.bytes [0#8]]
     s.fault = false ∧ s.engine.phase = .finalized ∧ tupleFits (tupleShape (.heWrite 1#16)) s.operands = true) := by
  decide
theorem test_witness_StatusLayout : (given .heState []).operands = [] ∧ (given .heState []).engine.phase = .ready := by
  decide
theorem test_witness_HeStateInReady :
    let s := State.given (latched abc) ⟨[]⟩ .heState []
    s.operands = [] ∧ s.engine.phase = .ready ∧ s.fault = true := by decide
theorem test_witness_HeStateInFinalized :
    let s := State.given finalized ⟨[]⟩ .heState []
    s.operands = [] ∧ s.engine.phase = .finalized := by decide
theorem test_witness_HashDependsOnMessageOnly : finalized.fault = false := rfl

theorem test_witness_TcDecodeResult :
    let s := given .tcDecode [.u32 0x03800000#32]
    s.fault = false ∧ s.operands = [.u32 0x03800000#32] ∧ s.cfg.codec = .reference := by decide
theorem test_witness_TcEncodeResult :
    let s := given .tcEncode [.u256 0#256]
    s.fault = false ∧ s.operands = [.u256 0#256] ∧ s.cfg.codec = .reference := by decide
theorem test_witness_TcEncodeResult_one :
    let s := given .tcEncode [.u256 1#256]
    s.fault = false ∧ s.operands = [.u256 1#256] ∧ s.cfg.codec = .reference ∧ 1#256 ≠ 0#256 := by decide
/-- A configuration with another codec. -/
theorem test_witness_EveryCodecCompletes :
    let s := { given .tcEncode [.u256 1#256] with cfg := { demoParams with codec := .other 0 } }
    let r := { given .tcDecode [.u32 1#32] with cfg := { demoParams with codec := .other 0 } }
    s.fault = false ∧ s.operands = [.u256 1#256] ∧ r.fault = false ∧ r.operands = [.u32 1#32] := by decide
/-- The target 0x80 takes one byte, and two with a sign bit; 0x7F takes one either way (95_test_vectors.md 4.2). -/
theorem test_witness_EveryCodecKeepsLayout :
    (decodeTarget demoParams 0x01fedcba#32).neg = true ∧ 2 * 0x7F < 2 ^ (8 * 1) ∧ 2 * 0x80 < 2 ^ (8 * 2) ∧
    ((encodeTarget demoParams 0x80#256).extractLsb' 24 8).toNat = 2 ∧
    ((encodeTarget demoParams 0x7F#256).extractLsb' 24 8).toNat = 1 := by decide
theorem test_witness_PowCheckResult :
    let s := given .powCheck [.bytes (zeros 32), .u32 0#32]
    s.fault = false ∧ s.operands = [.bytes (zeros 32), .u32 0#32] ∧ (zeros 32).length = 32 := by decide
/-- The hash at the target and one above it (95_test_vectors.md 1.8). -/
theorem test_witness_PowBoundary :
    let d := decodeTarget demoParams 0x1d00ffff#32
    d.neg = false ∧ d.ovf = false ∧ 0 < d.value.toNat ∧ d.value.toNat ≤ demoParams.powLimit.toNat ∧
    leNat (boundaryHash 0x00#8) = d.value.toNat ∧ leNat (boundaryHash 0x01#8) = d.value.toNat + 1 ∧
    (boundaryHash 0x00#8).length = 32 := by decide
/-- Target zero, and a target above the limit (1.8). -/
theorem test_witness_PowBoundary_rejects :
    (decodeTarget demoParams 0x00000000#32).value.toNat = 0 ∧
    demoParams.powLimit.toNat < (decodeTarget demoParams 0x1f00ffff#32).value.toNat := by decide
theorem test_witness_PowHeaderVerdict :
    demo.fault = false ∧ (zeros 80).length = 80 ∧ (assemble ⟨[]⟩ (.powHeader (zeros 80))).isSome = true := by decide

/-- The premises of each clause of the clamp, at the values where the clauses meet (95_test_vectors.md 4.3). -/
theorem test_witness_ClampRanges :
    demoParams.SourceTimes ∧ clamp demoParams 899 3500 = 3495 ∧ clamp demoParams 900 3500 = 900 ∧
    clamp demoParams 3129 3499 = 3130 ∧ clamp demoParams 3130 3499 = 3130 ∧ clamp demoParams 7200 3000 = 7200 ∧
    clamp demoParams 7201 3000 = 7200 ∧ clamp demoParams (-5000) 4000 = 3495 := by decide
theorem test_witness_DrRetargetResult :
    let s := given .drRetarget [.u32 1#32, .i64 0#64, .i32 0#32]
    s.fault = false ∧ s.operands = [.u32 1#32, .i64 0#64, .i32 0#32] ∧ s.cfg.SourceTimes ∧
    s.cfg.noRetargeting = false := by decide
/-- 4.4, the row without retargeting. -/
theorem test_witness_DrRetargetResult_none :
    let s := { given .drRetarget [.u32 0x01800000#32, .i64 1000#64, .i32 3000#32] with
      cfg := { demoParams with noRetargeting := true } }
    s.cfg.SourceTimes ∧ shown (exec .drRetarget s) = some (.result (.compact 0x01800000#32)) := by decide
theorem test_witness_ProductWidthsAgree :
    demoParams.SourceTimes ∧ demoParams.powLimit.toNat < 2 ^ 243 ∧
    (decodeTarget demoParams 0x1d00ffff#32).value.toNat ≤ demoParams.powLimit.toNat := by decide

/-- DR.NEXT at entry `r` of a view. -/
def askNext (p : Params) (v : View) (r : Nat) (time : BitVec 64) : State :=
  State.given (State.powerOn p) v .drNext [.entry (some r), .i64 time]

/-- A one-entry view. -/
def lone (height : BitVec 32) (time : BitVec 64) (ancestors : List (Int × Nat)) : View :=
  ⟨[⟨height, time, 0x1d00ffff#32, none, ancestors⟩]⟩

/-- Heights below and at the ends of the range, 60_exceptions.md R221. -/
theorem test_witness_DrNextFaults_height :
    latch (exec .drNext (askNext demoParams (lone 0x7FFFFFFF#32 0#64 []) 0 0#64)) =
      some (true, .operandRange, ⟨0x31#8, 2147483647⟩) ∧
    latch (exec .drNext (askNext demoParams (lone 0xFFFFFFFF#32 0#64 []) 0 0#64)) =
      some (true, .operandRange, ⟨0x31#8, -1⟩) ∧
    latch (exec .drNext (askNext demoParams (lone 0#32 0#64 []) 0 0#64)) =
      some (false, .none, ⟨0#8, 0⟩) := by decide
/-- 95_test_vectors.md 4.5: no ancestor, and one of height 1 for height 0. -/
theorem test_witness_DrNextFaults_ancestor :
    latch (exec .drNext (askNext demoParams (lone 19#32 0#64 []) 0 0#64)) =
      some (true, .missingAncestor, ⟨0x31#8, 0⟩) ∧
    latch (exec .drNext (askNext demoParams
        ⟨[⟨19#32, 0#64, 0#32, none, [(0, 1)]⟩, ⟨1#32, 0#64, 0#32, none, []⟩]⟩ 0 0#64)) =
      some (true, .chainInconsistent, ⟨0x31#8, 1⟩) := by decide
/-- 43_retarget.md R193: a span and a sum that leave int64. -/
theorem test_witness_DrNextFaults_range :
    latch (exec .drNext (askNext demoParams
        ⟨[⟨19#32, 0x7FFFFFFFFFFFFFFF#64, 0#32, none, [(0, 1)]⟩, ⟨0#32, BitVec.ofInt 64 (-1), 0#32, none, []⟩]⟩ 0 0#64)) =
      some (true, .operandRange, ⟨0x31#8, 2 ^ 63⟩) ∧
    latch (exec .drNext (askNext demoParams (lone 1#32 0x7FFFFFFFFFFFFE98#64 []) 0 0#64)) =
      some (true, .operandRange, ⟨0x31#8, 2 ^ 63⟩) := by decide
/-- 43_retarget.md R190: minimum-difficulty blocks off, on past the limit, and a boundary. -/
theorem test_witness_DrNextResult :
    shown (exec .drNext (askNext { demoParams with allowMinDifficulty := false } chainB 23 9999#64)) =
      some (.result (.compact 0x1e0fffff#32)) ∧
    shown (exec .drNext (askNext demoParams chainB 23 4501#64)) = some (.result (.compact 0x1e0fffff#32)) ∧
    (chainC.entry 19).bind (fun e => chainC.ancestor e (e.heightInt - 19)) = chainC.entry 0 := by decide
/-- 95_test_vectors.md 4.5, chain B: the walk goes on to height 20. -/
theorem test_witness_DrNextWalks :
    let s := askNext demoParams chainB 23 4500#64
    s.fault = false ∧ s.operands = [.entry (some 23), .i64 4500#64] ∧
    (s.view.entry 23).map (·.heightInt) = some 23 ∧ s.cfg.interval = 20 ∧ (23 + 1) % 20 ≠ 0 ∧
    s.cfg.allowMinDifficulty = true ∧ (s.view.entry 23).map (fun e => e.timeInt + 2 * s.cfg.spacing) = some 4500 ∧
    (4500#64).toInt ≤ 4500 ∧ shown (exec .drNext s) = some (.result (.compact 0x1e0fffff#32)) := by decide
theorem test_witness_HeightSourceMattersOnce :
    demoParams.SourceTimes ∧ ∀ e, chainC.entry 19 = some e → e.heightInt ≠ 3499 := by
  exact ⟨by decide, fun e h => by cases h; decide⟩
/-- 95_test_vectors.md 4.3, the last height of the 15% rule and the first of the 3% rule. -/
theorem test_witness_HeightSourceMattersOnce_clamp :
    demoParams.SourceTimes ∧ clamp demoParams 600 3499 = 3130 ∧ clamp demoParams 600 3500 = 3495 ∧
    clamp demoParams 3129 3500 = 3129 := by decide
theorem test_witness_HonestViewNeverInconsistent :
    demoParams.SourceTimes ∧ chainC.Honest ∧
    ∃ e ∈ chainC.entries, 0 ≤ e.heightInt ∧ e.heightInt < 2 ^ 31 - 1 ∧ e.heightInt = 19 := by decide
theorem test_witness_AssemblerIssuesWellFormed :
    (assemble chainC (.drNext (some 19) 3100)).map (fun x => x.commands.length) = some 1 ∧
    (assemble ⟨[]⟩ (.hashChk abc)).map (fun x => x.commands.length) = some 4 := by decide
theorem test_witness_AssemblerIssuesWellFormed_check :
    (assemble ⟨[]⟩ (.powHeader (zeros 80))).bind (·.thenCheck) = some 0#32 ∧ (zeros 32).length = 32 ∧
    (checkCommand (zeros 32) 0#32).wellFormed = true := by decide
/-- A header of 80 bytes, and one byte short. -/
theorem test_witness_AssemblerCarriesMessage :
    (zeros 80).length = 80 ∧ (zeros 79).length ≠ 80 ∧
    ((assemble ⟨[]⟩ (.hash80 (zeros 80))).map (fun x => x.commands.map (·.word))) =
      some [0x01000000#32, 0x03000050#32, 0x04000000#32] := by decide
theorem test_witness_InstancesAreIndependent :
    1 < 2 ∧ ((System.start demoParams 2).member 1).isSome = true ∧ (System.start demoParams 2).member 2 = none := by
  decide

end Sys2Proof.Tests
end

section
/-! SUPPORT. The invariant of the engine and of the fault record, kept by every way a command ends (10_state.md R22 to
R24, 60_exceptions.md R221, R222). -/

namespace Sys2Proof.Machine

/-! ## The engine -/

theorem initialEngine_inv (p : Params) : (initialEngine p).Inv := by
  simp [Engine.Inv]

/-- Bytes absorbed in phase READY keep the engine's invariant (40_hash_engine.md R103, R106). -/
theorem absorbAll_inv {p : Params} {e : Engine} (bs : List Byte) (h : e.Inv) (hp : e.phase = .ready) :
    (absorbAll p e bs).Inv := by
  obtain ⟨hlen, hready, -⟩ := h
  obtain ⟨ht0, hf⟩ := hready hp
  exact ⟨absorbAll_length p bs e hlen, fun _ => ⟨absorbAll_t0 p bs e ht0, by simpa using hf⟩, by simp [hp]⟩

/-- Finalization ends in phase FINALIZED with an empty buffer (R120). -/
theorem finalize_inv {p : Params} {e : Engine} (h : e.Inv) : (finalize p e).Inv := by
  obtain ⟨hlen, -, -⟩ := h
  simp [Engine.Inv, finalize_buf p e hlen]

/-! ## The fault record -/

theorem raise_recordInv (s : State) {c : Cause} {opc : Byte} {d : Int} (hc : c ≠ .none)
    (hr : recordMatches c ⟨opc, d⟩) : (s.raise c opc d).RecordInv :=
  ⟨by simp [hc], hr⟩

theorem rsvField_eq_lowField (w : Word) : rsvField w = (lowField w).extractLsb' 16 8 :=
  (BitVec.extractLsb'_extractLsb'_of_le (by decide)).symm

theorem imm16Field_eq_lowField (w : Word) : imm16Field w = (lowField w).extractLsb' 0 16 :=
  (BitVec.extractLsb'_extractLsb'_of_le (by decide)).symm

/-- Every reserved bit lies in `word[23:0]` (30_encoding.md R71, R77). -/
theorem decode_ne_reservedNonzero {w : Word} (h : lowField w = 0#24) : decode w ≠ .error .reservedNonzero := by
  have hrsv : rsvField w = 0#8 := by rw [rsvField_eq_lowField, h]; rfl
  have himm : imm16Field w = 0#16 := by rw [imm16Field_eq_lowField, h]; rfl
  unfold decode
  split <;> simp [decodeCmd0, decodeCmdB, decodeCmdN, hrsv, himm]

/-- The detail of a decode fault belongs to its cause (60_exceptions.md R221). -/
theorem recordMatches_decode {w : Word} {d : DecodeFault} (h : decode w = .error d) :
    recordMatches (decodeCause d) ⟨opcField w, decodeDetail w d⟩ := by
  cases d with
  | illegalOpcode => rfl
  | reservedNonzero =>
    have hne : lowField w ≠ 0#24 := fun h0 => decode_ne_reservedNonzero h0 h
    have hpos : 0 < (lowField w).toNat := BitVec.toNat_pos_of_ne_zero hne
    have hlt := (lowField w).isLt
    exact ⟨by simpa [decodeDetail] using hpos, by simp only [decodeDetail]; omega⟩

/-! ## Steps -/

/-- A word that is no command keeps the invariant. -/
theorem rejectWord_inv {s : State} {w : Word} {d : DecodeFault} (h : s.Inv) (hd : decode w = .error d) :
    (s.rejectWord w d).Inv := by
  obtain ⟨hengine, hrecord⟩ := h
  unfold State.rejectWord
  split
  · exact ⟨hengine, hrecord⟩
  · exact ⟨hengine, raise_recordInv s (by cases d <;> simp [decodeCause]) (recordMatches_decode hd)⟩

theorem observe_inv {s : State} (h : s.Inv) : s.observe.Inv := by
  cases hp : s.engine.phase with
  | ready => rw [observe_ready s hp]; exact h
  | finalized => rw [observe_finalized s hp]; exact h

/-- A command that replaces the engine leaves the fault record. -/
theorem withEngine_inv {s : State} {e : Engine} {r : Result} (he : e.Inv) (hs : s.RecordInv) :
    ({ s with engine := e }.done r).Inv :=
  ⟨he, hs⟩

/-- However a command ends, the invariant is kept. -/
theorem Ending.inv {i : Instr} {s t : State} (h : Ending i s t) (hs : s.Inv) : t.Inv := by
  obtain ⟨hengine, hrecord⟩ := hs
  cases h with
  | refused _ => exact ⟨hengine, hrecord⟩
  | observed _ _ => exact observe_inv ⟨hengine, hrecord⟩
  | faulted c d _ hc hr => exact ⟨hengine, raise_recordInv s hc hr⟩
  | answered r _ => exact ⟨hengine, hrecord⟩
  | absorbed bs _ hp => exact withEngine_inv (absorbAll_inv bs hengine hp) hrecord
  | finalized r _ _ => exact withEngine_inv (finalize_inv hengine) hrecord
  | initial _ _ => exact withEngine_inv (initialEngine_inv s.cfg) hrecord

theorem powerCycle_inv (s : State) : s.powerCycle.Inv :=
  ⟨initialEngine_inv s.cfg, by simp [State.RecordInv, recordMatches]⟩

/-- Settles O15, by the ways a step and a command end. -/
theorem stepKeepsInvariant : Obligations.StepKeepsInvariant := by
  intro s t hs hstep
  rcases step_cases hstep with ⟨_, _, rfl⟩ | ⟨_, _, _, _, _, hexec⟩ | ⟨_, _, _, _, hd, rfl⟩
  · exact powerCycle_inv s
  · exact (exec_ending hexec).inv hs
  · exact rejectWord_inv hs hd

end Sys2Proof.Machine
end

section
/-! SUPPORT. What no step writes (10_state.md R29, R31), and the instances of a system, which share it (R33,
20_memory.md R63). -/

namespace Sys2Proof.Machine

/-! ## The configuration -/

@[simp] theorem rejectWord_cfg (s : State) (w : Word) (d : DecodeFault) : (s.rejectWord w d).cfg = s.cfg := by
  unfold State.rejectWord
  split <;> simp

@[simp] theorem observe_cfg (s : State) : s.observe.cfg = s.cfg := by
  unfold State.observe
  split <;> simp

theorem Ending.cfg_eq {i : Instr} {s t : State} (h : Ending i s t) : t.cfg = s.cfg := by
  cases h <;> simp

theorem step_cfg {s t : State} (h : step s = .next t) : t.cfg = s.cfg := by
  rcases step_cases h with ⟨_, _, rfl⟩ | ⟨_, _, _, _, _, hexec⟩ | ⟨_, _, _, _, _, rfl⟩
  · exact State.powerCycle_cfg s
  · exact (exec_ending hexec).cfg_eq
  · exact rejectWord_cfg s _ _

/-- Settles O16, by the ways a step and a command end. -/
theorem stepKeepsConfiguration : Obligations.StepKeepsConfiguration := fun _ _ h => step_cfg h

/-! ## Instances -/

/-- Of several steps alone, the first may be split off. -/
theorem aloneSteps_succ (k : Nat) (s : State) : aloneSteps (k + 1) s = aloneSteps k (aloneSteps 1 s) := by
  simp only [aloneSteps]
  split <;> rfl

/-- A state over the shared configuration, put in a member's place, is that member. -/
theorem member_set {sys : System} {i : Nat} {s t : State} (hm : sys.member i = some s) (ht : t.cfg = sys.shared) :
    { sys with members := sys.members.set i t }.member i = some t := by
  simp only [System.member, Option.map_eq_some_iff] at hm
  obtain ⟨old, hold, -⟩ := hm
  obtain ⟨hi, -⟩ := List.getElem?_eq_some_iff.mp hold
  simp [System.member, hi, ← ht]

/-- A member that steps takes the step it takes alone. -/
theorem systemStep_member_self (sys : System) (i : Nat) :
    (systemStep sys i).member i = (sys.member i).map (aloneSteps 1) := by
  cases hm : sys.member i with
  | none => simp only [systemStep, hm, Option.map_none]
  | some s =>
    cases hs : step s with
    | next t =>
      simp only [systemStep, hm, hs, Option.map_some, aloneSteps]
      exact member_set hm ((step_cfg hs).trans (member_cfg hm))
    | fault r => simp only [systemStep, hm, hs, Option.map_some, aloneSteps]
    | refused r => simp only [systemStep, hm, hs, Option.map_some, aloneSteps]

@[simp] theorem systemRun_nil (sys : System) : systemRun sys [] = sys := rfl

@[simp] theorem systemRun_cons (sys : System) (j : Nat) (schedule : List Nat) :
    systemRun sys (j :: schedule) = systemRun (systemStep sys j) schedule := rfl

@[simp] theorem systemRun_shared (schedule : List Nat) (sys : System) :
    (systemRun sys schedule).shared = sys.shared := by
  induction schedule generalizing sys with
  | nil => rfl
  | cons j schedule ih => simp [ih]

/-- Each member takes as many steps of its own as the schedule gives it (20_memory.md R63). -/
theorem systemRun_member (schedule : List Nat) (sys : System) (i : Nat) :
    (systemRun sys schedule).member i = (sys.member i).map (aloneSteps (schedule.count i)) := by
  induction schedule generalizing sys with
  | nil => cases h : sys.member i <;> simp [h, aloneSteps]
  | cons j schedule ih =>
    rw [systemRun_cons, ih]
    by_cases hij : j = i
    · subst hij
      rw [systemStep_member_self, Option.map_map, List.count_cons_self]
      congr 1
      exact funext fun s => (aloneSteps_succ _ s).symm
    · rw [systemStep_member_ne hij, List.count_cons_of_ne hij]

theorem start_member {p : Params} {n i : Nat} (h : i < n) :
    (System.start p n).member i = some (State.powerOn p) := by
  simp [System.member, System.start, h, State.powerOn]

/-- Settles O53, by induction on the schedule. -/
theorem instancesAreIndependent : Obligations.InstancesAreIndependent :=
  ⟨fun sys schedule i => ⟨systemRun_member schedule sys i, systemRun_shared schedule sys,
      fun _ h => (member_cfg h).trans (systemRun_shared schedule sys)⟩,
    fun _ _ _ h => start_member h⟩

end Sys2Proof.Machine
end

section
/-! SUPPORT. The fields of STATUS (10_state.md R28). -/

namespace Sys2Proof.Machine

section
variable (fault : Bool) (cause : Byte) (finalized : Bool) (final : BitVec 1) (fill : BitVec 6)

theorem packStatus_fill : (packStatus fault cause finalized final fill).extractLsb' 0 6 = fill :=
  BitVec.extractLsb'_append_eq_right

theorem packStatus_final : (packStatus fault cause finalized final fill).extractLsb' 6 1 = final :=
  (BitVec.extractLsb'_append_eq_of_le (by decide)).trans BitVec.extractLsb'_append_eq_right

theorem packStatus_finalized :
    (packStatus fault cause finalized final fill).extractLsb' 7 1 = BitVec.ofBool finalized :=
  (BitVec.extractLsb'_append_eq_of_le (by decide)).trans <|
  (BitVec.extractLsb'_append_eq_of_le (by decide)).trans BitVec.extractLsb'_append_eq_right

/-- STATUS from bit 8 up. -/
theorem packStatus_extract_upper {start len : Nat} (h : 8 ≤ start) :
    (packStatus fault cause finalized final fill).extractLsb' start len =
      (0#7 ++ BitVec.ofBool fault ++ cause ++ 0#8).extractLsb' (start - 8) len := by
  refine (BitVec.extractLsb'_append_eq_of_le (by omega)).trans ?_
  refine (BitVec.extractLsb'_append_eq_of_le (by omega)).trans ?_
  refine (BitVec.extractLsb'_append_eq_of_le (by omega)).trans ?_
  rfl

theorem packStatus_reserved_low : (packStatus fault cause finalized final fill).extractLsb' 8 8 = 0#8 :=
  (packStatus_extract_upper _ _ _ _ _ (by decide)).trans BitVec.extractLsb'_append_eq_right

theorem packStatus_cause : (packStatus fault cause finalized final fill).extractLsb' 16 8 = cause :=
  (packStatus_extract_upper _ _ _ _ _ (by decide)).trans <|
  (BitVec.extractLsb'_append_eq_of_le (by decide)).trans BitVec.extractLsb'_append_eq_right

theorem packStatus_fault :
    (packStatus fault cause finalized final fill).extractLsb' 24 1 = BitVec.ofBool fault :=
  (packStatus_extract_upper _ _ _ _ _ (by decide)).trans <|
  (BitVec.extractLsb'_append_eq_of_le (by decide)).trans <|
  (BitVec.extractLsb'_append_eq_of_le (by decide)).trans BitVec.extractLsb'_append_eq_right

theorem packStatus_reserved_high : (packStatus fault cause finalized final fill).extractLsb' 25 7 = 0#7 :=
  (packStatus_extract_upper _ _ _ _ _ (by decide)).trans <|
  (BitVec.extractLsb'_append_eq_of_le (by decide)).trans <|
  (BitVec.extractLsb'_append_eq_of_le (by decide)).trans BitVec.extractLsb'_append_eq_left
end

/-- A field of one bit is that bit. -/
theorem getLsbD_of_extractLsb' {w : Nat} {x : BitVec w} {i : Nat} {b : Bool}
    (h : x.extractLsb' i 1 = BitVec.ofBool b) : x.getLsbD i = b := by
  rw [BitVec.getLsbD_eq_extractLsb', h]
  cases b <;> rfl

theorem finalizedBit_eq (e : Engine) : e.finalizedBit = decide (e.phase = .finalized) := by
  cases h : e.phase <;> simp [Engine.finalizedBit, h]

theorem powerOn_statusWord (p : Params) : (State.powerOn p).statusWord = 0#32 := by
  simp [State.statusWord, finalizedBit_eq, causeCode, packStatus]

/-- Settles O32, field by field; HE.STATE in phase READY observes the snapshot that carries STATUS. -/
theorem statusLayout : Obligations.StatusLayout := by
  refine ⟨fun s => ⟨packStatus_fill .., getLsbD_of_extractLsb' (packStatus_final ..), ?_, packStatus_reserved_low ..,
    packStatus_cause .., getLsbD_of_extractLsb' (packStatus_fault ..), packStatus_reserved_high ..⟩,
    powerOn_statusWord, fun s hops hready => ⟨s.observe, s.snapshot, execHeState_empty s hops, ?_, rfl⟩⟩
  · exact (getLsbD_of_extractLsb' (packStatus_finalized ..)).trans (finalizedBit_eq s.engine)
  · rw [observe_ready s hready, State.done_result]

end Sys2Proof.Machine
end

section
/-! SUPPORT. The number a list of bytes denotes (00_scope.md R13), and the byte orders of message words and digests
(20_memory.md R51 to R54, 40_hash_engine.md R140). -/

namespace Sys2Proof.Machine

/-! ## Numbers of bytes -/

@[simp] theorem leNat_nil : leNat [] = 0 := rfl

@[simp] theorem leNat_cons (b : Byte) (bs : List Byte) : leNat (b :: bs) = b.toNat + 256 * leNat bs := rfl

theorem leNat_append (xs ys : List Byte) : leNat (xs ++ ys) = leNat xs + 256 ^ xs.length * leNat ys := by
  induction xs with
  | nil => simp
  | cons x xs ih => simp only [List.cons_append, leNat_cons, ih, List.length_cons]; ring

/-- A byte put below a bit vector is its lowest digit in base 256. -/
theorem toNat_append_byte {n : Nat} (x : BitVec n) (b : Byte) : (x ++ b).toNat = x.toNat * 256 + b.toNat := by
  rw [BitVec.toNat_append, ← Nat.shiftLeft_add_eq_or_of_lt b.isLt, Nat.shiftLeft_eq]

/-- `LE32` is the number of its bytes (00_scope.md R13). -/
theorem le32_toNat (b0 b1 b2 b3 : Byte) : (le32 b0 b1 b2 b3).toNat = leNat [b0, b1, b2, b3] := by
  simp only [le32, toNat_append_byte, leNat_cons, leNat_nil]
  omega

/-- `BE32` reads the bytes of `LE32` in reverse. -/
theorem be32_eq_le32 (b0 b1 b2 b3 : Byte) : be32 b0 b1 b2 b3 = le32 b3 b2 b1 b0 := rfl

/-! ## Message words -/

theorem drop_eq_blockByte_cons {block : List Byte} {k : Nat} (h : k < block.length) :
    block.drop k = blockByte block k :: block.drop (k + 1) := by
  rw [List.drop_eq_getElem_cons h, blockByte, List.getD_eq_getElem _ _ h]

/-- Four bytes of a block, read one by one. -/
theorem take_four_drop (block : List Byte) (j : Nat) (h : j + 4 ≤ block.length) :
    (block.drop j).take 4 =
      [blockByte block j, blockByte block (j + 1), blockByte block (j + 2), blockByte block (j + 3)] := by
  rw [drop_eq_blockByte_cons (by omega), drop_eq_blockByte_cons (by omega), drop_eq_blockByte_cons (by omega),
    drop_eq_blockByte_cons (by omega)]
  rfl

section
variable {p : Params} (block : List Byte) (i : Nat) (h : 4 * i + 4 ≤ block.length)
include h

theorem messageWord_doc (hp : p.profile = .doc) :
    (messageWord p block i).toNat = leNat ((block.drop (4 * i)).take 4) := by
  simp only [messageWord, hp, le32_toNat, take_four_drop block (4 * i) h]

theorem messageWord_blake256 (hp : p.profile = .blake256) :
    (messageWord p block i).toNat = leNat ((block.drop (4 * i)).take 4).reverse := by
  simp only [messageWord, hp, be32_eq_le32, le32_toNat, take_four_drop block (4 * i) h]
  rfl
end

theorem messageWords_getElem (p : Params) (block : List Byte) (i : Fin 16) :
    (messageWords p block)[i] = messageWord p block i := by
  simp [messageWords]

/-- Settles O54, profile by profile: each reads four bytes of the block. -/
theorem messageWordsByProfile : Obligations.MessageWordsByProfile := by
  intro p block i hlen
  have h : 4 * i.val + 4 ≤ block.length := by omega
  rw [messageWords_getElem]
  exact ⟨messageWord_doc block i h, messageWord_blake256 block i h⟩

/-! ## The digest -/

@[simp] theorem bytesBE32_length (w : Word) : (bytesBE32 w).length = 4 := rfl

/-- The big-endian bytes of a word, least significant first, are those of the word swapped (20_memory.md R54). -/
theorem leNat_bytesBE32 (w : Word) : leNat (bytesBE32 w) = (byteswap32 w).toNat :=
  (le32_toNat _ _ _ _).symm

/-- A word's bytes are its four lowest digits in base 256: those of the words after it count `2 ^ 32` times. -/
theorem leNat_bytesBE32_append (w : Word) (bs : List Byte) :
    leNat (bytesBE32 w ++ bs) = (byteswap32 w).toNat + 2 ^ 32 * leNat bs := by
  rw [leNat_append, leNat_bytesBE32, bytesBE32_length]
  norm_num

/-- The number of the big-endian bytes of a list of words: the sum of R54 for any count of words. -/
theorem leNat_flatMap_bytesBE32 {n : Nat} (f : Fin n → Word) :
    leNat ((List.ofFn f).flatMap bytesBE32) =
      ((List.finRange n).map fun i => (byteswap32 (f i)).toNat * 2 ^ (32 * i.val)).sum := by
  induction n with
  | zero => rfl
  | succ n ih =>
    have shift (i : Fin n) : (byteswap32 (f i.succ)).toNat * 2 ^ (32 * i.succ.val) =
        2 ^ 32 * ((byteswap32 (f i.succ)).toNat * 2 ^ (32 * i.val)) := by
      rw [Fin.val_succ, Nat.mul_succ, Nat.pow_add]; ring
    rw [List.ofFn_succ, List.flatMap_cons, leNat_bytesBE32_append, ih, List.finRange_succ, List.map_cons,
      List.sum_cons, List.map_map, ← List.sum_map_mul_left, Fin.val_zero, Nat.mul_zero, Nat.pow_zero, Nat.mul_one]
    simp only [Function.comp_def, shift]

/-- Settles O35: the digest is the big-endian bytes of the eight words in turn. -/
theorem digestAsInteger : Obligations.DigestAsInteger := by
  intro h
  have hlist : h.toList = List.ofFn fun i : Fin 8 => h[i] := by
    rw [← Vector.toList_ofFn]
    exact congrArg Vector.toList Vector.ofFn_getElem.symm
  rw [digestBytes, hlist, leNat_flatMap_bytesBE32]

end Sys2Proof.Machine
end

section
/-! SUPPORT. Every action of the host has a next state (20_memory.md R61). -/

namespace Sys2Proof.Machine

/-- With an action pending the block has a step, whether the action is power-on reset, a command or a word that is no
command. -/
theorem step_total {s : State} (h : s.pending ≠ []) : ∃ t, step s = .next t := by
  obtain ⟨a, rest, hp⟩ := List.exists_cons_of_ne_nil h
  cases a with
  | powerOn => exact ⟨_, step_powerOn s rest hp⟩
  | command c =>
    cases hd : decode c.word with
    | ok i => rw [step_command s c rest i hp hd]; exact exec_total i s
    | error d => exact ⟨_, step_reject s c rest d hp hd⟩

/-- Settles O10, by the kinds of action. -/
theorem everyActionHasStep : Obligations.EveryActionHasStep := ⟨fun _ h => step_total h, exec_total⟩

end Sys2Proof.Machine
end

section
/-! SUPPORT. The decoder by opcode (30_encoding.md R75, R77): which format reads a word, and that a word decodes exactly
when it is the encoding of its command. -/

namespace Sys2Proof

/-- The commands of format CMD0, which carry nothing but their opcode (R72). -/
def cmd0Commands : List Instr :=
  [.heReset, .heFinal, .heState, .tcDecode, .tcEncode, .powCheck, .drRetarget, .drNext]

/-! ## Which format reads a word -/

theorem decode_cmd0 {w : Word} {i : Instr} (hi : i ∈ cmd0Commands) (h : opcField w = opcode i) :
    decode w = decodeCmd0 w i := by
  unfold decode
  rw [h]
  simp only [cmd0Commands, List.mem_cons, List.not_mem_nil, or_false] at hi
  rcases hi with rfl | rfl | rfl | rfl | rfl | rfl | rfl | rfl <;> rfl

theorem decode_cmdB {w : Word} (h : opcField w = 0x02#8) : decode w = decodeCmdB w .heWriteb := by
  unfold decode
  rw [h]
  rfl

theorem decode_cmdN {w : Word} (h : opcField w = 0x03#8) : decode w = decodeCmdN w .heWrite := by
  unfold decode
  rw [h]
  rfl

theorem decode_unlisted {w : Word} (h0 : ∀ i ∈ cmd0Commands, opcField w ≠ opcode i) (hB : opcField w ≠ 0x02#8)
    (hN : opcField w ≠ 0x03#8) : decode w = .error .illegalOpcode := by
  simp only [cmd0Commands, List.forall_mem_cons, opcode, ne_eq, ← BitVec.toNat_inj, BitVec.reduceToNat] at h0 hB hN
  unfold decode
  split <;> simp_all

/-- The format by which a word is read: CMD0, CMDB, CMDN, or none. -/
theorem format_cases (w : Word) :
    (∃ i ∈ cmd0Commands, opcField w = opcode i) ∨ opcField w = 0x02#8 ∨ opcField w = 0x03#8 ∨
    ((∀ i ∈ cmd0Commands, opcField w ≠ opcode i) ∧ opcField w ≠ 0x02#8 ∧ opcField w ≠ 0x03#8) := by
  by_cases h0 : ∃ i ∈ cmd0Commands, opcField w = opcode i
  · exact .inl h0
  · push Not at h0
    tauto

/-! ## What each format accepts -/

theorem decodeCmd0_eq_ok {w : Word} {i j : Instr} :
    decodeCmd0 w i = .ok j ↔ rsvField w = 0#8 ∧ imm16Field w = 0#16 ∧ i = j := by
  unfold decodeCmd0
  split
  · simp [*]
  · split <;> simp_all

theorem decodeCmdB_eq_ok {w : Word} {f : Byte → Instr} {j : Instr} :
    decodeCmdB w f = .ok j ↔
      rsvField w = 0#8 ∧ (imm16Field w).extractLsb' 8 8 = 0#8 ∧ f ((imm16Field w).extractLsb' 0 8) = j := by
  unfold decodeCmdB
  split
  · simp [*]
  · split <;> simp_all

theorem decodeCmdN_eq_ok {w : Word} {f : BitVec 16 → Instr} {j : Instr} :
    decodeCmdN w f = .ok j ↔ rsvField w = 0#8 ∧ f (imm16Field w) = j := by
  unfold decodeCmdN
  split <;> simp_all

/-! ## Decoding and encoding -/

/-- Settles O1, by the format of the command: the fields of its word are the ones the format asks for. -/
theorem decodeOfEncode : Obligations.DecodeOfEncode := by
  intro i
  obtain ⟨hopc, hrsv, himm⟩ := Laws.wordFields_of_encode i
  cases i with
  | heWriteb d =>
    rw [decode_cmdB hopc, decodeCmdB_eq_ok, himm]
    exact ⟨hrsv, BitVec.extractLsb'_append_eq_left, congrArg _ BitVec.extractLsb'_append_eq_right⟩
  | heWrite n => rw [decode_cmdN hopc, decodeCmdN_eq_ok, himm]; exact ⟨hrsv, rfl⟩
  | _ => rw [decode_cmd0 (by decide) hopc, decodeCmd0_eq_ok]; exact ⟨hrsv, himm, rfl⟩

@[simp] theorem decode_encode (i : Instr) : decode (encode i) = .ok i := decodeOfEncode i

theorem immediate_cmd0 {i : Instr} (hi : i ∈ cmd0Commands) : immediate i = 0#16 := by
  revert i
  decide

/-- An immediate is its two bytes. -/
theorem imm16_eq_bytes (x : BitVec 16) : x = x.extractLsb' 8 8 ++ x.extractLsb' 0 8 :=
  ((BitVec.extractLsb'_append_extractLsb'_eq_extractLsb' (start₁ := 0) (len₁ := 8) rfl).trans
    BitVec.extractLsb'_eq_self).symm

/-- The fields of a word that decodes are those of its command. -/
theorem fields_of_decode {w : Word} {i : Instr} (h : decode w = .ok i) :
    opcField w = opcode i ∧ rsvField w = 0x00#8 ∧ imm16Field w = immediate i := by
  rcases format_cases w with ⟨j, hj, hopc⟩ | hopc | hopc | ⟨h0, hB, hN⟩
  · rw [decode_cmd0 hj hopc] at h
    obtain ⟨hrsv, himm, rfl⟩ := decodeCmd0_eq_ok.mp h
    exact ⟨hopc, hrsv, himm.trans (immediate_cmd0 hj).symm⟩
  · rw [decode_cmdB hopc] at h
    obtain ⟨hrsv, hhigh, rfl⟩ := decodeCmdB_eq_ok.mp h
    exact ⟨hopc, hrsv, (imm16_eq_bytes _).trans (congrArg (· ++ _) hhigh)⟩
  · rw [decode_cmdN hopc] at h
    obtain ⟨hrsv, rfl⟩ := decodeCmdN_eq_ok.mp h
    exact ⟨hopc, hrsv, rfl⟩
  · rw [decode_unlisted h0 hB hN] at h
    cases h

/-- Settles O2: a word is put together from its fields, and a decoded one's are those of its command. -/
theorem encodeOfDecode : Obligations.EncodeOfDecode := by
  intro w i h
  obtain ⟨hopc, hrsv, himm⟩ := fields_of_decode h
  rw [word_eq_fields w, hopc, hrsv, himm, encode]

theorem decode_eq_ok_iff {w : Word} {i : Instr} : decode w = .ok i ↔ w = encode i :=
  ⟨fun h => (encodeOfDecode w i h).symm, fun h => h ▸ decode_encode i⟩

/-! ## The order of the checks -/

/-- A word has a listed opcode exactly when one of the three formats reads it. -/
theorem mem_opcodes_iff (b : Byte) :
    b ∈ [0x01#8, 0x02#8, 0x03#8, 0x04#8, 0x05#8, 0x10#8, 0x11#8, 0x20#8, 0x30#8, 0x31#8] ↔
      (∃ i ∈ cmd0Commands, b = opcode i) ∨ b = 0x02#8 ∨ b = 0x03#8 := by
  simp only [cmd0Commands, List.mem_cons, List.not_mem_nil, or_false, exists_eq_or_imp, exists_eq_left, opcode]
  tauto

theorem decodeCmd0_reserved {w : Word} (i : Instr) (h : rsvField w ≠ 0#8 ∨ imm16Field w ≠ 0#16) :
    decodeCmd0 w i = .error .reservedNonzero := by
  unfold decodeCmd0
  split
  · rfl
  · rw [if_pos (h.resolve_left ‹_›)]

theorem decodeCmdB_reserved {w : Word} (f : Byte → Instr)
    (h : rsvField w ≠ 0#8 ∨ (imm16Field w).extractLsb' 8 8 ≠ 0#8) : decodeCmdB w f = .error .reservedNonzero := by
  unfold decodeCmdB
  split
  · rfl
  · rw [if_pos (h.resolve_left ‹_›)]

theorem decodeCmdN_reserved {w : Word} (f : BitVec 16 → Instr) (h : rsvField w ≠ 0#8) :
    decodeCmdN w f = .error .reservedNonzero := if_pos h

theorem opcode_cmd0_ne {i : Instr} (hi : i ∈ cmd0Commands) : opcode i ≠ 0x02#8 ∧ opcode i ≠ 0x03#8 := by
  revert i
  decide

/-- Settles O4, by the format that reads the word. -/
theorem decodeCheckOrder : Obligations.DecodeCheckOrder := by
  intro w known immReserved
  have hknown := mem_opcodes_iff (opcField w)
  rcases format_cases w with ⟨i, hi, hopc⟩ | hopc | hopc | ⟨h0, hB, hN⟩
  · obtain ⟨hneB, hneN⟩ := opcode_cmd0_ne hi
    have himm : immReserved ↔ imm16Field w ≠ 0#16 := by simp [immReserved, hopc, hneB, hneN]
    rw [decode_cmd0 hi hopc, himm]
    exact ⟨fun h => absurd (hknown.mpr (.inl ⟨i, hi, hopc⟩)) h, fun _ hr => decodeCmd0_reserved i (.inl hr),
      fun _ _ hm => decodeCmd0_reserved i (.inr hm),
      fun _ hr hm => ⟨i, decodeCmd0_eq_ok.mpr ⟨hr, not_not.mp hm, rfl⟩, hopc.symm⟩⟩
  · have himm : immReserved ↔ (imm16Field w).extractLsb' 8 8 ≠ 0#8 := by simp [immReserved, hopc]
    rw [decode_cmdB hopc, himm]
    exact ⟨fun h => absurd (hknown.mpr (.inr (.inl hopc))) h, fun _ hr => decodeCmdB_reserved _ (.inl hr),
      fun _ _ hm => decodeCmdB_reserved _ (.inr hm),
      fun _ hr hm => ⟨_, decodeCmdB_eq_ok.mpr ⟨hr, not_not.mp hm, rfl⟩, hopc.symm⟩⟩
  · have himm : immReserved ↔ False := by simp [immReserved, hopc]
    rw [decode_cmdN hopc, himm]
    exact ⟨fun h => absurd (hknown.mpr (.inr (.inr hopc))) h, fun _ hr => decodeCmdN_reserved _ hr,
      fun _ _ hm => hm.elim, fun _ hr _ => ⟨_, decodeCmdN_eq_ok.mpr ⟨hr, rfl⟩, hopc.symm⟩⟩
  · have hnot : opcField w ∉ known := fun h => by
      rcases hknown.mp h with ⟨i, hi, hopc⟩ | hopc | hopc
      · exact h0 i hi hopc
      · exact hB hopc
      · exact hN hopc
    exact ⟨fun _ => decode_unlisted h0 hB hN, fun h => absurd h hnot, fun h => absurd h hnot, fun h => absurd h hnot⟩

/-! ## The rows of the opcode map -/

/-- A word agrees with a pattern under a mask of its top bits exactly when it is the pattern with some low bits. -/
theorem and_highMask_eq_iff {m n : Nat} (w : BitVec (m + n)) (p : BitVec m) :
    w &&& (BitVec.allOnes m ++ 0#n) = p ++ 0#n ↔ ∃ x : BitVec n, w = p ++ x := by
  constructor
  · intro h
    have hw : w.extractLsb' n m ++ w.extractLsb' 0 n = w :=
      (BitVec.extractLsb'_append_extractLsb'_eq_extractLsb' (start₁ := 0) (len₁ := n) (by omega)).trans
        BitVec.extractLsb'_eq_self
    rw [← hw, BitVec.and_append, BitVec.and_allOnes, BitVec.and_zero] at h
    refine ⟨w.extractLsb' 0 n, hw.symm.trans (congrArg (· ++ _) ?_)⟩
    simpa only [BitVec.extractLsb'_append_eq_left] using congrArg (BitVec.extractLsb' n m) h
  · rintro ⟨x, rfl⟩
    rw [BitVec.and_append, BitVec.and_allOnes, BitVec.and_zero]

/-- The reserved half of CMDB's immediate may be read with the fields above it. -/
theorem fields_append_byte (a b c d : Byte) : (a ++ b ++ (c ++ d) : Word) = (a ++ b ++ c : BitVec 24) ++ d :=
  (BitVec.append_assoc (x₁ := a ++ b) (x₂ := c) (x₃ := d)).symm

theorem encode_heWriteb (d : Byte) : encode (.heWriteb d) = 0x020000#24 ++ d :=
  (fields_append_byte 0x02#8 0x00#8 0x00#8 d).trans (congrArg (· ++ d) (by decide))

theorem encode_heWrite (n : BitVec 16) : encode (.heWrite n) = 0x0300#16 ++ n := by
  simp only [encode, opcode, immediate, BitVec.reduceAppend]

/-- The rows of R75 by format: the mask of CMD0 is the whole word, and the others leave the immediate free. -/
theorem opcodeRows_cases {r : OpcodeRow} (h : r ∈ opcodeRows) :
    (∃ i ∈ cmd0Commands, r = ⟨mnemonic i, encode i, BitVec.allOnes 32⟩) ∨
    r = ⟨"HE.WRITEB", 0x020000#24 ++ 0#8, BitVec.allOnes 24 ++ 0#8⟩ ∨
    r = ⟨"HE.WRITE", 0x0300#16 ++ 0#16, BitVec.allOnes 16 ++ 0#16⟩ := by
  revert r
  decide

theorem mem_cmd0Commands (i : Instr) : i ∈ cmd0Commands ∨ (∃ d, i = .heWriteb d) ∨ ∃ n, i = .heWrite n := by
  cases i <;> simp [cmd0Commands]

/-- The mnemonic of a command without an immediate names it. -/
theorem mnemonic_eq_cmd0 {i j : Instr} (hi : i ∈ cmd0Commands) : mnemonic j = mnemonic i ↔ j = i := by
  have hnames : ∀ i ∈ cmd0Commands, mnemonic i ≠ "HE.WRITEB" ∧ mnemonic i ≠ "HE.WRITE" ∧
      ∀ j ∈ cmd0Commands, mnemonic j = mnemonic i → j = i := by decide
  obtain ⟨hB, hN, hinj⟩ := hnames i hi
  refine ⟨fun h => ?_, congrArg mnemonic⟩
  rcases mem_cmd0Commands j with hj | ⟨d, rfl⟩ | ⟨n, rfl⟩
  · exact hinj j hj h
  · exact absurd h.symm hB
  · exact absurd h.symm hN

theorem mnemonic_eq_heWriteb {j : Instr} : mnemonic j = "HE.WRITEB" ↔ ∃ d, j = .heWriteb d := by
  cases j <;> simp [mnemonic]

theorem mnemonic_eq_heWrite {j : Instr} : mnemonic j = "HE.WRITE" ↔ ∃ n, j = .heWrite n := by
  cases j <;> simp [mnemonic]

/-- A word selects a row exactly when it decodes to a command of the row. -/
theorem selects_iff_decodes {w : Word} {r : OpcodeRow} (h : r ∈ opcodeRows) :
    w &&& r.mask = r.pattern ↔ ∃ i, decode w = .ok i ∧ mnemonic i = r.mnemonic := by
  simp only [decode_eq_ok_iff]
  rcases opcodeRows_cases h with ⟨i, hi, rfl⟩ | rfl | rfl
  · simp only [mnemonic_eq_cmd0 hi, exists_eq_right, BitVec.and_allOnes]
  · refine (and_highMask_eq_iff (m := 24) (n := 8) w _).trans ?_
    simp [mnemonic_eq_heWriteb, ← encode_heWriteb]
  · refine (and_highMask_eq_iff (m := 16) (n := 16) w _).trans ?_
    simp [mnemonic_eq_heWrite, ← encode_heWrite]

theorem opcodeRows_mnemonic_inj :
    ∀ r ∈ opcodeRows, ∀ q ∈ opcodeRows, r.mnemonic = q.mnemonic → r = q := by decide

/-- Settles O3: two rows that a word selects have the mnemonic of the one command it decodes to. -/
theorem opcodeRowsSelect : Obligations.OpcodeRowsSelect := by
  refine ⟨fun w r hr => selects_iff_decodes hr, fun w r q hr hq hwr hwq => ?_⟩
  obtain ⟨i, hi, hir⟩ := (selects_iff_decodes hr).mp hwr
  obtain ⟨j, hj, hjq⟩ := (selects_iff_decodes hq).mp hwq
  cases hi.symm.trans hj
  exact opcodeRows_mnemonic_inj r hr q hq (hir.symm.trans hjq)

/-- Settles O5, by evaluating the decoder on each word. -/
theorem specWordsDecode : Obligations.SpecWordsDecode := by
  refine ⟨?_, ?_, ?_, ?_, ?_, ?_, ?_, ?_⟩ <;> decide

end Sys2Proof
end

section
/-! SUPPORT. Byte forms: a command word on a byte-wide link (30_encoding.md R71) and operand tuples on a byte port
(R73). -/

namespace Sys2Proof.Machine

/-! ## The link -/

/-- The little-endian bytes of a word denote it (00_scope.md R13). -/
theorem leNat_bytesLE32 (w : Word) : leNat (bytesLE32 w) = w.toNat := by
  simp only [bytesLE32, leNat_cons, leNat_nil, BitVec.extractLsb'_toNat, Nat.shiftRight_eq_div_pow]
  omega

theorem le32_bytesLE32 (w : Word) :
    le32 (w.extractLsb' 0 8) (w.extractLsb' 8 8) (w.extractLsb' 16 8) (w.extractLsb' 24 8) = w :=
  BitVec.eq_of_toNat_eq ((le32_toNat _ _ _ _).trans (leNat_bytesLE32 w))

theorem decodeLink_bytesLE32 (w : Word) (rest : List Byte) :
    decodeLink (bytesLE32 w ++ rest) = some (decode w, rest) := by
  simp only [bytesLE32, List.cons_append, List.nil_append, decodeLink, le32_bytesLE32]

/-- Settles O6: the four bytes of the link are the word, which decodes to its command. -/
theorem linkCarriesCommand : Obligations.LinkCarriesCommand := by
  refine fun i rest => ⟨?_, leNat_bytesLE32 (encode i)⟩
  rw [encodeLink, decodeLink_bytesLE32, decode_encode]

/-! ## Operand tuples -/

@[simp] theorem leBytes_length (k x : Nat) : (leBytes k x).length = k := by
  induction k generalizing x with
  | zero => rfl
  | succ k ih => simp [leBytes, ih]

/-- The `k` lowest bytes of a number denote it modulo `256 ^ k`. -/
theorem leNat_leBytes (k x : Nat) : leNat (leBytes k x) = x % 256 ^ k := by
  induction k generalizing x with
  | zero => simp [leBytes, Nat.mod_one]
  | succ k ih => rw [leBytes, leNat_cons, ih, Nat.pow_succ', Nat.mod_mul, BitVec.toNat_ofNat]

/-- As many bytes as a field takes give it back. -/
theorem ofNat_leNat_leBytes {w k : Nat} (h : 2 ^ w = 256 ^ k) (x : BitVec w) :
    BitVec.ofNat w (leNat (leBytes k x.toNat)) = x := by
  rw [leNat_leBytes, ← h, Nat.mod_eq_of_lt x.isLt, BitVec.ofNat_toNat, BitVec.setWidth_eq]

/-- An operand of a kind is read back from its bytes, which are as many as the kind takes. -/
theorem operandOf_operandBytes {o : Operand} {k : OperandKind} {bs : List Byte} (hfit : o.fits k = true)
    (hbs : operandBytes o = some bs) : kindWidth k = some bs.length ∧ operandOf k bs = some o := by
  unfold Operand.fits at hfit
  split at hfit
  -- in the order of the kinds: BYTES, the four numbers, an entry reference (no bytes), and any mismatch
  case h_1 => cases hbs; exact ⟨congrArg some (beq_iff_eq.mp hfit).symm, rfl⟩
  case h_2 | h_3 | h_4 | h_5 => cases hbs; simp [kindWidth, operandOf, ofNat_leNat_leBytes]
  case h_6 => cases hbs
  case h_7 => cases hfit

/-- A tuple of a shape reads back from its bytes. -/
theorem readTuple_tupleBytes {ks : List OperandKind} {ops : List Operand} {bs : List Byte}
    (hfit : tupleFits ks ops = true) (hbs : tupleBytes ops = some bs) : readTuple ks bs = some ops := by
  induction ks generalizing ops bs with
  | nil =>
    cases ops with
    | nil => cases hbs; rfl
    | cons o ops => cases hfit
  | cons k ks ih =>
    cases ops with
    | nil => cases hfit
    | cons o ops =>
      simp only [tupleFits, Bool.and_eq_true] at hfit
      simp only [tupleBytes, Option.bind_eq_some_iff, Option.map_eq_some_iff] at hbs
      obtain ⟨front, hfront, back, hback, rfl⟩ := hbs
      obtain ⟨hwidth, hread⟩ := operandOf_operandBytes hfit.1 hfront
      simp [readTuple, hwidth, hread, ih hfit.2 hback]

/-- Settles O7, by induction on the shape. -/
theorem tupleBytesReadBack : Obligations.TupleBytesReadBack := fun _ _ _ hfit hbs => readTuple_tupleBytes hfit hbs

end Sys2Proof.Machine
end

section
/-! SUPPORT. Steps on words and tuples that are not as the command asks (30_encoding.md R73, R77). -/

namespace Sys2Proof.Machine

/-! ## The command word -/

/-- Settles O8, by the rule for a word that decodes. -/
theorem stepRunsDecodedCommand : Obligations.StepRunsDecodedCommand := step_command

/-- An unlatched block raises the decode fault of a word that is no command. -/
theorem rejectWord_unlatched {s : State} (h : s.fault = false) (w : Word) (d : DecodeFault) :
    s.rejectWord w d = s.raise (decodeCause d) (opcField w) (decodeDetail w d) := by
  simp [State.rejectWord, h]

/-- Settles O9, by the fault that the unlatched block raises for the word. -/
theorem badWordTakesItsFault : Obligations.BadWordTakesItsFault := by
  intro s c rest hp hf
  have hstep (d : DecodeFault) (hd : decode c.word = .error d) :
      step s = .next (s.raise (decodeCause d) (opcField c.word) (decodeDetail c.word d)) := by
    rw [step_reject s c rest d hp hd, rejectWord_unlatched hf]
  simp only [State.raise, State.complete, hp, List.tail_cons] at hstep
  exact ⟨hstep .illegalOpcode, hstep .reservedNonzero⟩

/-! ## The operand tuple -/

theorem noOperands_eq_none {ops : List Operand} (h : tupleFits [] ops = false) : noOperands ops = none := by
  cases ops with
  | nil => cases h
  | cons o ops => rfl

theorem compactOperand_eq_none {ops : List Operand} (h : tupleFits [.u32] ops = false) :
    compactOperand ops = none := by
  unfold compactOperand
  split
  · cases h
  · rfl

theorem targetOperand_eq_none {ops : List Operand} (h : tupleFits [.u256] ops = false) :
    targetOperand ops = none := by
  unfold targetOperand
  split
  · cases h
  · rfl

theorem hashCompactOperands_eq_none {ops : List Operand} (h : tupleFits [.bytes 32, .u32] ops = false) :
    hashCompactOperands ops = none := by
  unfold hashCompactOperands
  split
  · simpa [tupleFits, Operand.fits] using h
  · rfl

theorem retargetOperands_eq_none {ops : List Operand} (h : tupleFits [.u32, .i64, .i32] ops = false) :
    retargetOperands ops = none := by
  unfold retargetOperands
  split
  · cases h
  · rfl

theorem nextOperands_eq_none {v : View} {ops : List Operand} (h : tupleFits [.entry, .i64] ops = false) :
    nextOperands v ops = none := by
  unfold nextOperands
  split
  · cases h
  · cases h
  · rfl

/-- A command whose reader finds the wrong shape faults. -/
theorem serve_of_none {α : Type} {s : State} {opc : Byte} {o : Option α} {received : Nat} {run : α → State}
    (hf : s.fault = false) (ho : o = none) :
    s.serve opc o received run = .next (s.raise .operandMismatch opc received) :=
  ho ▸ serve_mismatch s opc received run hf

/-- Every command but HE.WRITE faults with the number of operands where the tuple has not its shape (60_exceptions.md
R221). -/
theorem exec_mismatch {i : Instr} {s : State} (hf : s.fault = false) (hi : ∀ n, i ≠ .heWrite n)
    (h : tupleFits (tupleShape i) s.operands = false) :
    exec i s = .next (s.raise .operandMismatch (opcode i) s.operands.length) := by
  cases i with
  | heWrite n => exact absurd rfl (hi n)
  | heState =>
    have hne : s.operands ≠ [] := fun h0 => by rw [h0] at h; cases h
    rw [exec, execHeState_nonempty s hne, hf]
    rfl
  | heReset => exact serve_of_none hf (noOperands_eq_none h)
  | heWriteb d => exact serve_of_none hf (noOperands_eq_none h)
  | heFinal => exact serve_of_none hf (noOperands_eq_none h)
  | tcDecode => exact serve_of_none hf (compactOperand_eq_none h)
  | tcEncode => exact serve_of_none hf (targetOperand_eq_none h)
  | powCheck => exact serve_of_none hf (hashCompactOperands_eq_none h)
  | drRetarget => exact serve_of_none hf (retargetOperands_eq_none h)
  | drNext => exact serve_of_none hf (nextOperands_eq_none h)

/-- HE.WRITE faults with the number of bytes where it is not `N` (R103, R221). -/
theorem execHeWrite_mismatch {n : BitVec 16} {bs : List Byte} {s : State} (hf : s.fault = false)
    (ho : s.operands = [.bytes bs]) (hlen : bs.length ≠ n.toNat) :
    execHeWrite n s = .next (s.raise .operandMismatch 0x03#8 bs.length) := by
  have hnone : bytesOperand n.toNat s.operands = none := by rw [ho, bytesOperand, if_neg hlen]
  refine (serve_of_none hf hnone).trans ?_
  rw [ho]
  rfl

/-- Settles O18, by what the commands read of the tuple. -/
theorem wrongTupleFaults : Obligations.WrongTupleFaults :=
  ⟨fun _ _ hf hi h => exec_mismatch hf hi h, fun _ _ _ hf ho hlen => execHeWrite_mismatch hf ho hlen⟩

end Sys2Proof.Machine
end

section
/-! SUPPORT. The host at work: which commands the assembler's lines issue (30_encoding.md R79 to R84), and what an
unlatched block answers to them when they are issued to it. -/

namespace Sys2Proof.Machine

/-! ## Well-formed commands -/

@[simp] theorem issueOf_wellFormed (v : View) (i : Instr) (ops : List Operand) :
    (issueOf v i ops).wellFormed = tupleFits (tupleShape i) ops := by
  simp [Command.wellFormed]

/-- A byte count up to 65535 fits the field `N` (R103). -/
theorem toNat_ofNat_count {n : Nat} (h : n ≤ 65535) : (BitVec.ofNat 16 n).toNat = n :=
  Nat.mod_eq_of_lt (by omega)

theorem writeCommand_wellFormed (v : View) {bs : List Byte} (h : bs.length ≤ 65535) :
    (writeCommand v bs).wellFormed = true := by
  simp only [writeCommand, issueOf_wellFormed, tupleShape, tupleFits, Operand.fits, toNat_ofNat_count h,
    beq_self_eq_true, Bool.and_self]

/-- The POW.CHECK of `pow.header` has a hash of 32 bytes and a compact value (R84). -/
theorem checkCommand_wellFormed {d : List Byte} (c : Word) (h : d.length = 32) :
    (checkCommand d c).wellFormed = true := by
  simp [checkCommand, tupleFits, tupleShape, Operand.fits, h]

/-! ## The chunks of a message -/

@[simp] theorem writeChunks_nil (fuel : Nat) : writeChunks fuel [] = [] := by
  cases fuel <;> rfl

/-- The chunks make up the message (R80, R82). -/
theorem writeChunks_flatten {fuel : Nat} {bs : List Byte} (h : bs.length ≤ fuel) :
    (writeChunks fuel bs).flatten = bs := by
  induction fuel generalizing bs with
  | zero => rw [List.length_eq_zero_iff.mp (Nat.le_zero.mp h)]; rfl
  | succ fuel ih =>
    cases bs with
    | nil => rfl
    | cons b bs =>
      have hdrop : ((b :: bs).drop 65535).length ≤ fuel := by
        simp only [List.length_drop, List.length_cons] at h ⊢; omega
      simp only [writeChunks, List.isEmpty_cons, Bool.false_eq_true, if_false, List.flatten_cons, ih hdrop,
        List.take_append_drop]

/-- Each chunk is one HE.WRITE's (R103: `N` is at most 65535). -/
theorem length_of_mem_writeChunks {fuel : Nat} {bs x : List Byte} (h : x ∈ writeChunks fuel bs) :
    0 < x.length ∧ x.length ≤ 65535 := by
  induction fuel generalizing bs with
  | zero => cases h
  | succ fuel ih =>
    cases bs with
    | nil => cases h
    | cons b bs =>
      simp only [writeChunks, List.isEmpty_cons, Bool.false_eq_true, if_false, List.mem_cons] at h
      rcases h with rfl | h
      · simp only [List.length_take, List.length_cons]; omega
      · exact ih h

/-- A short message is one chunk. -/
theorem writeChunks_single {bs : List Byte} (h0 : bs ≠ []) (h : bs.length ≤ 65535) :
    writeChunks bs.length bs = [bs] := by
  obtain ⟨b, bs, rfl⟩ := List.exists_cons_of_ne_nil h0
  rw [List.length_cons, writeChunks, List.take_of_length_le h, List.drop_of_length_le h, writeChunks_nil]
  rfl

/-! ## What the lines issue -/

theorem writesCommands_wellFormed {v : View} {bs : List Byte} {c : Command} (h : c ∈ writesCommands v bs) :
    c.wellFormed = true := by
  obtain ⟨x, hx, rfl⟩ := List.mem_map.mp h
  exact writeCommand_wellFormed v (length_of_mem_writeChunks hx).2

theorem hashCommands_wellFormed {v : View} {bs : List Byte} {c : Command} (h : c ∈ hashCommands v bs) :
    c.wellFormed = true := by
  simp only [hashCommands, List.mem_cons, List.mem_append, List.not_mem_nil, or_false] at h
  rcases h with rfl | h | rfl
  · exact issueOf_wellFormed ..
  · exact writesCommands_wellFormed h
  · exact issueOf_wellFormed ..

/-- A number that a field holds is read back from it. -/
theorem toNat_of_natField {w n : Nat} {x : BitVec w} (h : natField w n = some x) : x.toNat = n := by
  unfold natField at h
  split at h
  · cases h; exact Nat.mod_eq_of_lt ‹_›
  · cases h

/-- The `TIP` operand of a line is an entry reference or NONE (R79). -/
theorem entry_of_tipOperand {v : View} {tip : Option Nat} {o : Operand} (h : tipOperand v tip = some o) :
    ∃ ref, o = .entry ref := by
  cases tip with
  | none => cases h; exact ⟨_, rfl⟩
  | some t =>
    obtain ⟨r, -, rfl⟩ := Option.map_eq_some_iff.mp h
    exact ⟨_, rfl⟩

/-- A line of one command is well formed with it. -/
theorem single_wellFormed {v : View} {i : Instr} {ops : List Operand} (h : tupleFits (tupleShape i) ops = true) :
    ∀ c ∈ (commandsOnly [issueOf v i ops]).commands, c.wellFormed = true := by
  intro c hc
  rw [List.mem_singleton.mp hc, issueOf_wellFormed, h]

/-- Settles O52, line by line. -/
theorem assemblerIssuesWellFormed : Obligations.AssemblerIssuesWellFormed := by
  intro v l x h
  cases l with
  | heReset => cases h; exact single_wellFormed rfl
  | heFinal => cases h; exact single_wellFormed rfl
  | heState => cases h; exact single_wellFormed rfl
  | heWriteb b => obtain ⟨_, -, rfl⟩ := Option.map_eq_some_iff.mp h; exact single_wellFormed rfl
  | tcDecode c => obtain ⟨_, -, rfl⟩ := Option.map_eq_some_iff.mp h; exact single_wellFormed rfl
  | tcEncode t => obtain ⟨_, -, rfl⟩ := Option.map_eq_some_iff.mp h; exact single_wellFormed rfl
  | heWrite n bs =>
    obtain ⟨hlen, h⟩ := Option.ite_none_right_eq_some.mp h
    obtain ⟨k, hk, rfl⟩ := Option.map_eq_some_iff.mp h
    exact single_wellFormed (by simp [tupleShape, tupleFits, Operand.fits, toNat_of_natField hk, hlen])
  | powCheck d c =>
    obtain ⟨hlen, h⟩ := Option.ite_none_right_eq_some.mp h
    obtain ⟨_, -, rfl⟩ := Option.map_eq_some_iff.mp h
    exact single_wellFormed (by simp [tupleShape, tupleFits, Operand.fits, hlen])
  | drRetarget old span height =>
    obtain ⟨_, -, h⟩ := Option.bind_eq_some_iff.mp h
    obtain ⟨_, -, h⟩ := Option.bind_eq_some_iff.mp h
    obtain ⟨_, -, rfl⟩ := Option.map_eq_some_iff.mp h
    exact single_wellFormed rfl
  | drNext tip time =>
    obtain ⟨_, ht, h⟩ := Option.bind_eq_some_iff.mp h
    obtain ⟨ref, rfl⟩ := entry_of_tipOperand ht
    obtain ⟨_, -, rfl⟩ := Option.map_eq_some_iff.mp h
    exact single_wellFormed rfl
  | hash bs => cases h; exact fun _ => hashCommands_wellFormed
  | heWrites bs => cases h; exact fun _ => writesCommands_wellFormed
  | hash80 hdr =>
    obtain ⟨-, h⟩ := Option.ite_none_right_eq_some.mp h
    cases h
    exact fun _ => hashCommands_wellFormed
  | powHeader hdr =>
    obtain ⟨-, h⟩ := Option.ite_none_right_eq_some.mp h
    cases h
    exact fun _ => hashCommands_wellFormed
  | hashChk bs =>
    cases h
    intro c hc
    rcases List.mem_append.mp hc with hc | hc
    · exact hashCommands_wellFormed hc
    · exact single_wellFormed rfl c hc

/-- The word of an HE.WRITE of `n` bytes (R76). -/
theorem encode_heWrite_ofNat {n : Nat} (h : n ≤ 65535) :
    encode (.heWrite (BitVec.ofNat 16 n)) = 0x03000000#32 + BitVec.ofNat 32 n := by
  rw [encode_heWrite]
  apply BitVec.eq_of_toNat_eq
  rw [BitVec.toNat_append, ← Nat.shiftLeft_add_eq_or_of_lt (BitVec.isLt _), BitVec.toNat_add]
  simp only [BitVec.toNat_ofNat, Nat.shiftLeft_eq]
  omega

theorem writeCommand_eq (v : View) {bs : List Byte} (h : bs.length ≤ 65535) :
    writeCommand v bs = ⟨0x03000000#32 + BitVec.ofNat 32 bs.length, [.bytes bs], v⟩ := by
  rw [writeCommand, issueOf, encode_heWrite_ofNat h]

theorem writesCommands_eq (v : View) (bs : List Byte) :
    writesCommands v bs = (writeChunks bs.length bs).map
      (fun x => ⟨0x03000000#32 + BitVec.ofNat 32 x.length, [.bytes x], v⟩) :=
  List.map_congr_left fun _ hx => writeCommand_eq v (length_of_mem_writeChunks hx).2

theorem hashCommands_eq (v : View) (bs : List Byte) :
    hashCommands v bs =
      ⟨0x01000000#32, [], v⟩ :: (writesCommands v bs ++ [⟨0x04000000#32, [], v⟩]) := rfl

/-- A header of 80 bytes is one write (R81). -/
theorem hashCommands_header (v : View) {hdr : List Byte} (h : hdr.length = 80) :
    hashCommands v hdr = [⟨0x01000000#32, [], v⟩, ⟨0x03000050#32, [.bytes hdr], v⟩, ⟨0x04000000#32, [], v⟩] := by
  have hne : hdr ≠ [] := List.ne_nil_of_length_pos (by omega)
  rw [hashCommands_eq, writesCommands_eq, writeChunks_single hne (by omega), List.map_singleton, h]
  rfl

/-- Settles O58, by the chunks of a message, the single write of a header, and the shape of POW.CHECK's tuple. -/
theorem assemblerCarriesMessage : Obligations.AssemblerCarriesMessage := by
  refine ⟨fun v m => ⟨writeChunks m.length m, writeChunks_flatten le_rfl, fun x => length_of_mem_writeChunks, ?_⟩,
    fun v hdr => ⟨fun h => ?_, fun h => ⟨if_neg h, if_neg h⟩⟩, fun _ _ _ c _ _ _ hd => checkCommand_wellFormed c hd⟩
  · rw [← writesCommands_eq]
    intro writes reset final
    have hchk : hashCommands v m ++ [reset] = reset :: writes ++ [final, reset] := by
      simp [hashCommands_eq, writes, reset, final]
    exact ⟨rfl, rfl, congrArg (some ∘ commandsOnly) hchk⟩
  · rw [← hashCommands_header v h]
    exact ⟨if_pos h, if_pos h⟩

end Sys2Proof.Machine
end

section
/-! SUPPORT. Command sequences issued to an unlatched block: what it holds and answers after each command of a message
(40_hash_engine.md R101, R103, R120), and after POW.CHECK (42_pow_validator.md R170). -/

namespace Sys2Proof.Machine

/-- The state after a command that was issued alone and completed: its engine, and its result on the port. -/
def State.after (s : State) (e : Engine) (r : Result) : State :=
  { s with engine := e, pending := [], result := some (.result r) }

section
variable (s : State) (e : Engine) (r : Result)
@[simp] theorem State.after_cfg : (s.after e r).cfg = s.cfg := rfl
@[simp] theorem State.after_engine : (s.after e r).engine = e := rfl
@[simp] theorem State.after_fault : (s.after e r).fault = s.fault := rfl
@[simp] theorem State.after_result : (s.after e r).result = some (.result r) := rfl
@[simp] theorem State.after_after (e' : Engine) (r' : Result) : (s.after e r).after e' r' = s.after e' r' := rfl
end

/-! ## A command with the operands it takes -/

section
variable {s : State} (hf : s.fault = false)
include hf

theorem exec_heReset_run (ho : s.operands = []) :
    exec .heReset s = .next ({ s with engine := initialEngine s.cfg }.done .done) := by
  rw [exec, execHeReset, ho]
  exact serve_run _ _ _ _ () hf

theorem exec_heWrite_run {n : BitVec 16} {bs : List Byte} (ho : s.operands = [.bytes bs]) (hlen : bs.length = n.toNat)
    (hp : s.engine.phase = .ready) :
    exec (.heWrite n) s = .next ({ s with engine := absorbAll s.cfg s.engine bs }.done .done) := by
  have hread : bytesOperand n.toNat s.operands = some bs := by rw [ho, bytesOperand, if_pos hlen]
  rw [exec, execHeWrite, hread, serve_run _ _ _ _ bs hf, inReady_ready _ _ _ _ hp]

theorem exec_heFinal_run (ho : s.operands = []) (hp : s.engine.phase = .ready) :
    exec .heFinal s = .next ({ s with engine := finalize s.cfg s.engine }.done
      (.digest (digestBytes (finalize s.cfg s.engine).h))) := by
  rw [exec, execHeFinal, ho]
  exact (serve_run _ _ _ _ () hf).trans (congrArg _ (inReady_ready _ _ _ _ hp))

theorem exec_powCheck_run {d : List Byte} {c : Word} (ho : s.operands = [.bytes d, .u32 c]) (hd : d.length = 32) :
    exec .powCheck s = .next (s.done (.verdict (meetsTarget s.cfg d c))) := by
  have hread : hashCompactOperands s.operands = some (d, c) := by rw [ho, hashCompactOperands, if_pos hd]
  rw [exec, execPowCheck, hread, serve_run _ _ _ _ (d, c) hf]
end

/-! ## One command issued -/

/-- The state in which a command that is issued alone runs. -/
def State.issued (s : State) (c : Command) : State := { s with pending := [.command c] }

/-- A command with a word of the encoder, issued alone, runs as itself. -/
theorem issue_issueOf {v : View} {i : Instr} {ops : List Operand} {s : State} {e : Engine} {r : Result}
    (h : exec i (s.issued (issueOf v i ops)) = .next ({ s.issued (issueOf v i ops) with engine := e }.done r)) :
    issue (.command (issueOf v i ops)) s = .next (s.after e r) :=
  (step_command (s.issued _) (issueOf v i ops) [] i rfl (decode_encode i)).trans h

section
variable {s : State} (hf : s.fault = false)
include hf

theorem issue_heReset (v : View) :
    issue (.command (issueOf v .heReset [])) s = .next (s.after (initialEngine s.cfg) .done) :=
  issue_issueOf (exec_heReset_run (s := s.issued _) hf rfl)

theorem issue_writeCommand (v : View) (hp : s.engine.phase = .ready) {bs : List Byte} (h : bs.length ≤ 65535) :
    issue (.command (writeCommand v bs)) s = .next (s.after (absorbAll s.cfg s.engine bs) .done) :=
  issue_issueOf (exec_heWrite_run (s := s.issued _) hf rfl (toNat_ofNat_count h).symm hp)

theorem issue_heFinal (v : View) (hp : s.engine.phase = .ready) :
    issue (.command (issueOf v .heFinal [])) s =
      .next (s.after (finalize s.cfg s.engine) (.digest (digestBytes (finalize s.cfg s.engine).h))) :=
  issue_issueOf (exec_heFinal_run (s := s.issued _) hf rfl hp)

theorem issue_checkCommand {d : List Byte} (c : Word) (hd : d.length = 32) :
    issue (.command (checkCommand d c)) s = .next (s.after s.engine (.verdict (meetsTarget s.cfg d c))) :=
  issue_issueOf (exec_powCheck_run (s := s.issued _) hf rfl hd)
end

/-! ## Several commands -/

theorem issueAll_cons {c : Command} {s t : State} (h : issue (.command c) s = .next t) (cs : List Command) :
    issueAll (c :: cs) s = issueAll cs t := by
  rw [issueAll, h]

theorem issueAll_append {xs : List Command} {s t : State} (h : issueAll xs s = .next t) (ys : List Command) :
    issueAll (xs ++ ys) s = issueAll ys t := by
  induction xs generalizing s with
  | nil => cases h; rfl
  | cons x xs ih =>
    cases hx : issue (.command x) s with
    | next u => rw [issueAll_cons hx] at h; rw [List.cons_append, issueAll_cons hx, ih h]
    | fault r => rw [issueAll, hx] at h; cases h
    | refused r => rw [issueAll, hx] at h; cases h

/-- Chunks written one after another absorb all of their bytes (R82, R104). -/
theorem issueAll_writes {s : State} (hf : s.fault = false) (v : View) {e : Engine} (hp : e.phase = .ready)
    {chunks : List (List Byte)} (h : ∀ x ∈ chunks, x.length ≤ 65535) :
    issueAll (chunks.map (writeCommand v)) (s.after e .done) =
      .next (s.after (absorbAll s.cfg e chunks.flatten) .done) := by
  induction chunks generalizing e with
  | nil => rfl
  | cons x chunks ih =>
    obtain ⟨hx, hrest⟩ := List.forall_mem_cons.mp h
    have hwrite := issue_writeCommand ((State.after_fault s e .done).trans hf) v hp hx
    rw [List.map_cons, issueAll_cons hwrite, State.after_after, State.after_cfg, State.after_engine,
      ih (by rw [absorbAll_phase, hp]) hrest, List.flatten_cons, absorbAll_append]

/-- The engine after the bytes of a fresh message (R80). -/
def hashedEngine (p : Params) (bs : List Byte) : Engine := finalize p (absorbAll p (initialEngine p) bs)

/-- `hash` on an unlatched block returns the digest of a fresh message, whatever the engine held before. -/
theorem issueAll_hashCommands {s : State} (hf : s.fault = false) (v : View) (bs : List Byte) :
    issueAll (hashCommands v bs) s =
      .next (s.after (hashedEngine s.cfg bs) (.digest (digestBytes (hashedEngine s.cfg bs).h))) := by
  have hwrites := issueAll_writes hf v (initialEngine_phase s.cfg)
    (fun x (hx : x ∈ writeChunks bs.length bs) => (length_of_mem_writeChunks hx).2)
  rw [writeChunks_flatten le_rfl] at hwrites
  have hready : (absorbAll s.cfg (initialEngine s.cfg) bs).phase = .ready := absorbAll_phase ..
  have hfinal := issue_heFinal (s := s.after (absorbAll s.cfg (initialEngine s.cfg) bs) .done) hf v hready
  rw [hashCommands, issueAll_cons (issue_heReset hf v), writesCommands, issueAll_append hwrites,
    issueAll_cons hfinal]
  rfl

@[simp] theorem digestBytes_length (h : Vector Word 8) : (digestBytes h).length = 32 := by
  simp [digestBytes, List.length_flatMap]

/-- POW.CHECK follows on the digest the commands left on the port (R84). -/
theorem runExpansion_check {x : Expansion} {s t : State} {d : List Byte} {c : Word}
    (h : issueAll x.commands s = .next t) (hd : t.result = some (.result (.digest d))) (hc : x.thenCheck = some c) :
    runExpansion x s = issue (.command (checkCommand d c)) t := by
  simp only [runExpansion, h, hc, hd]

/-- Settles O43: `hash` leaves a digest of 32 bytes on the port, on which POW.CHECK then answers its verdict. -/
theorem powHeaderVerdict : Obligations.PowHeaderVerdict := by
  intro v s hdr x hf hlen hx
  obtain ⟨-, hx⟩ := Option.ite_none_right_eq_some.mp hx
  cases hx
  have hhash := issueAll_hashCommands hf v hdr
  generalize hashedEngine s.cfg hdr = e at hhash
  have hcheck := issue_checkCommand (s := s.after e (.digest (digestBytes e.h))) hf (headerBits hdr)
    (digestBytes_length e.h)
  exact ⟨_, _, _, hhash, rfl, (runExpansion_check hhash rfl rfl).trans hcheck, rfl⟩

end Sys2Proof.Machine
end

section
/-! SUPPORT. The HE commands on the states they take (40_hash_engine.md R101 to R103, R125), and what a command of any
unit leaves of the engine (60_exceptions.md R227). -/

namespace Sys2Proof.Machine

/-! ## What a faulting command leaves -/

@[simp] theorem observe_engine (s : State) : s.observe.engine = s.engine := by
  unfold State.observe
  split <;> simp

@[simp] theorem observe_fault (s : State) : s.observe.fault = s.fault := by
  unfold State.observe
  split <;> simp

/-- A command that sets the latch ends as a raised fault does. -/
theorem Ending.raised {i : Instr} {s t : State} (h : Ending i s t) (hs : s.fault = false) (ht : t.fault = true) :
    ∃ c d, t = s.raise c (opcode i) d := by
  cases h with
  | faulted c d _ _ _ => exact ⟨c, d, rfl⟩
  | refused hf => simp [hs] at hf
  | observed _ _ => simp [hs] at ht
  | answered r _ => simp [hs] at ht
  | absorbed bs _ _ => simp [hs] at ht
  | finalized r _ _ => simp [hs] at ht
  | initial _ _ => simp [hs] at ht

/-- A served command whose own part leaves the engine leaves it however it ends. -/
theorem serve_engine {α : Type} {s t : State} {opc : Byte} {o : Option α} {n : Nat} {run : α → State}
    (h : s.serve opc o n run = .next t) (hrun : ∀ a, (run a).engine = s.engine) : t.engine = s.engine := by
  rcases serve_cases s opc n run h with ⟨-, rfl⟩ | ⟨-, -, rfl⟩ | ⟨-, a, -, rfl⟩
  · exact State.refuse_engine s
  · exact State.raise_engine s _ _ _
  · exact hrun a

theorem endNext_engine (s : State) (x : Except ChainFault Word) : (s.endNext x).engine = s.engine := by
  cases x <;> rfl

theorem execHeState_engine {s t : State} (h : execHeState s = .next t) : t.engine = s.engine := by
  by_cases ho : s.operands = []
  · rw [execHeState_empty s ho] at h
    cases h
    exact observe_engine s
  · rw [execHeState_nonempty s ho] at h
    cases h
    split <;> simp

/-- Settles O17: a fault is raised on the state as it was, and the other commands never write the engine. -/
theorem faultsArePrecise : Obligations.FaultsArePrecise := by
  refine ⟨fun i s t hs h ht => ?_, fun i s t hi h => ?_⟩
  · obtain ⟨c, d, rfl⟩ := (exec_ending h).raised hs ht
    simp
  · simp only [List.mem_cons, List.not_mem_nil, or_false] at hi
    rcases hi with rfl | rfl | rfl | rfl | rfl | rfl
    · exact serve_engine h fun _ => rfl
    · exact serve_engine h fun _ => rfl
    · exact serve_engine h fun _ => rfl
    · exact serve_engine h fun _ => rfl
    · exact serve_engine h fun _ => endNext_engine s _
    · exact execHeState_engine h

/-! ## HE.RESET -/

/-- Only HE.RESET leaves phase FINALIZED. -/
theorem Ending.eq_heReset {i : Instr} {s t : State} (h : Ending i s t) (hs : s.engine.phase = .finalized)
    (ht : t.engine.phase = .ready) : i = .heReset := by
  cases h with
  | initial hi _ => exact hi
  | absorbed bs _ hp => simp [hs] at hp
  | finalized r _ hp => simp [hs] at hp
  | refused _ => simp [hs] at ht
  | observed _ _ => simp [hs] at ht
  | faulted c d _ _ _ => simp [hs] at ht
  | answered r _ => simp [hs] at ht

/-- Settles O20, by the ways a command ends. -/
theorem heResetResult : Obligations.HeResetResult :=
  ⟨rfl, fun _ hf ho => exec_heReset_run hf ho, fun _ _ _ hs h ht => (exec_ending h).eq_heReset hs ht⟩

/-- Settles O21: both commands write the initial engine of the one configuration. -/
theorem heResetIdempotent : Obligations.HeResetIdempotent :=
  fun s v hf => ⟨_, issue_heReset hf v, issue_heReset (s := s.after _ _) hf v, rfl⟩

/-! ## HE.WRITEB and HE.WRITE -/

theorem exec_heWriteb_run {s : State} (hf : s.fault = false) (d : Byte) (ho : s.operands = [])
    (hp : s.engine.phase = .ready) :
    exec (.heWriteb d) s = .next ({ s with engine := absorb s.cfg s.engine d }.done .done) := by
  rw [exec, execHeWriteb, ho]
  exact (serve_run _ _ _ _ () hf).trans (congrArg _ (inReady_ready _ _ _ _ hp))

/-- A full buffer is compressed with the counter advanced past it (R106). -/
theorem compressBuffer_withBuf (p : Params) (e : Engine) (block : List Byte) :
    compressBuffer p { e with buf := block } =
      { e with t0 := (advanceCounter p e).t0, t1 := (advanceCounter p e).t1, buf := [],
               h := compress p e.h (advanceCounter p e).t0 (advanceCounter p e).t1 e.f block } := by
  simp only [compressBuffer, advanceCounter]

/-- Settles O22, by whether the byte fills the block. -/
theorem heWritebResult : Obligations.HeWritebResult := by
  intro d s hf ho hp
  rw [exec_heWriteb_run hf d ho hp]
  refine ⟨fun h => ?_, fun h => ?_⟩
  · rw [absorb_short _ _ _ h.ne]
    rfl
  · rw [absorb_full _ _ _ h, compressBuffer_withBuf]
    rfl

/-- Settles O23: HE.WRITE absorbs its bytes, and no bytes leave the engine. -/
theorem heWriteResult : Obligations.HeWriteResult :=
  ⟨fun _ _ _ hf ho hlen hp => exec_heWrite_run hf ho hlen hp, fun _ hf ho hp => exec_heWrite_run hf ho rfl hp⟩

/-! ## HE.STATE -/

/-- Settles O33: in phase READY HE.STATE observes the registers. -/
theorem heStateInReady : Obligations.HeStateInReady := by
  intro s ho hp
  rw [exec, execHeState_empty s ho, observe_ready s hp]
  rfl

/-- Settles O34: the fields of STATUS that are not drawn, and as many drawn bytes as the drawn FILL. -/
theorem heStateInFinalized : Obligations.HeStateInFinalized := by
  intro s ho hp
  refine ⟨s.drawnSnapshot s.draws, ?_, ?_, ?_, packStatus_reserved_low .., packStatus_cause ..,
    getLsbD_of_extractLsb' (packStatus_fault ..), packStatus_reserved_high ..⟩
  · rw [exec, execHeState_empty s ho, observe_finalized s hp]
    rfl
  · simp [State.drawnSnapshot, packStatus_fill]
  · refine (getLsbD_of_extractLsb' (packStatus_finalized ..)).trans ?_
    simp [finalizedBit_eq, hp]

end Sys2Proof.Machine
end

section
/-! SUPPORT. A message delivered in pieces (40_hash_engine.md R104), the counter over its blocks (R107, R108), and the
digest of a message (R126). -/

namespace Sys2Proof.Machine

/-! ## Pieces of a message -/

theorem issue_heWriteb {s : State} (hf : s.fault = false) (v : View) (hp : s.engine.phase = .ready) (d : Byte) :
    issue (.command (issueOf v (.heWriteb d) [])) s = .next (s.after (absorb s.cfg s.engine d) .done) :=
  issue_issueOf (exec_heWriteb_run (s := s.issued _) hf d rfl hp)

/-- A piece, by HE.WRITEB or HE.WRITE, absorbs its bytes. -/
theorem issue_piece {s : State} (hf : s.fault = false) (v : View) (hp : s.engine.phase = .ready) {x : Piece}
    (hx : x.Carried) : issue (.command (x.command v)) s = .next (s.after (absorbAll s.cfg s.engine x.data) .done) := by
  cases x with
  | byte b => exact issue_heWriteb hf v hp b
  | block bs => exact issue_writeCommand hf v hp hx

@[simp] theorem messageOf_nil : messageOf [] = [] := rfl

@[simp] theorem messageOf_cons (x : Piece) (pieces : List Piece) :
    messageOf (x :: pieces) = x.data ++ messageOf pieces := rfl

/-- One piece or more absorb all their bytes in order. -/
theorem issueAll_pieces {s : State} (hf : s.fault = false) (v : View) (hp : s.engine.phase = .ready) {x : Piece}
    {pieces : List Piece} (h : ∀ y ∈ x :: pieces, y.Carried) :
    issueAll ((x :: pieces).map (Piece.command v)) s =
      .next (s.after (absorbAll s.cfg s.engine (messageOf (x :: pieces))) .done) := by
  obtain ⟨hx, hrest⟩ := List.forall_mem_cons.mp h
  rw [List.map_cons, issueAll_cons (issue_piece hf v hp hx), messageOf_cons, absorbAll_append]
  cases pieces with
  | nil => rfl
  | cons y pieces =>
    exact issueAll_pieces (s := s.after (absorbAll s.cfg s.engine x.data) .done) hf v
      ((absorbAll_phase ..).trans hp) hrest

/-- Settles O24: both sides absorb the bytes of the message. -/
theorem streamingEquivalence : Obligations.StreamingEquivalence := by
  intro v s pieces hf hp hne hcarried hlen
  obtain ⟨x, pieces, rfl⟩ := List.exists_cons_of_ne_nil hne
  exact ⟨_, issueAll_pieces hf v hp hcarried, issue_writeCommand hf v hp hlen⟩

/-! ## The counter -/

/-- Settles O25: at a multiple of 512 both rules test for the overflow of the low word. -/
theorem carryRulesAgree : Obligations.CarryRulesAgree := by
  intro p e h
  simp only [advanceCounter, counterCarries_aligned _ e.t0 h]

/-- The counter as one number (R108). -/
def Engine.counter (e : Engine) : Nat := e.t1.toNat * 2 ^ 32 + e.t0.toNat

theorem Engine.counter_lt (e : Engine) : e.counter < 2 ^ 64 := by
  have h0 := e.t0.isLt
  have h1 := e.t1.isLt
  unfold Engine.counter
  omega

/-- Whole blocks leave the buffer empty and advance the counter by 512 each. -/
theorem absorbAll_blocks (p : Params) {k : Nat} {bs : List Byte} {e : Engine} (hbuf : e.buf = [])
    (ht0 : e.t0.toNat % 512 = 0) (hlen : bs.length = 64 * k) :
    (absorbAll p e bs).counter = (e.counter + 512 * k) % 2 ^ 64 ∧ (absorbAll p e bs).buf = [] := by
  induction k generalizing bs e with
  | zero =>
    rw [List.eq_nil_of_length_eq_zero hlen, absorbAll_nil, Nat.mul_zero, Nat.add_zero]
    exact ⟨(Nat.mod_eq_of_lt e.counter_lt).symm, hbuf⟩
  | succ k ih =>
    have hblock : absorbAll p e (bs.take 64) = compressBuffer p { e with buf := bs.take 64 } := by
      rw [absorbAll_block p _ e (by simp [hbuf]) (by simp [hbuf]; omega), hbuf, List.nil_append]
    have hcounter : (compressBuffer p { e with buf := bs.take 64 }).counter = (e.counter + 512) % 2 ^ 64 := by
      rw [compressBuffer_withBuf]
      simpa only [Engine.counter] using advanceCounter_value p e ht0
    have ht0' : (compressBuffer p { e with buf := bs.take 64 }).t0.toNat % 512 = 0 :=
      hblock ▸ absorbAll_t0 p _ e ht0
    obtain ⟨ihcounter, ihbuf⟩ := ih (bs := bs.drop 64) (compressBuffer_buf ..) ht0' (by simp; omega)
    rw [← List.take_append_drop 64 bs, absorbAll_append, hblock]
    refine ⟨?_, ihbuf⟩
    rw [ihcounter, hcounter]
    omega

/-- Settles O26: the pieces absorb `k` blocks from power-on. -/
theorem counterCountsBlocks : Obligations.CounterCountsBlocks := by
  intro p v pieces k hcarried hlen
  obtain ⟨hcounter, hbuf⟩ := absorbAll_blocks p (initialEngine_buf p) (by simp) hlen
  have hzero : (initialEngine p).counter = 0 := by simp [Engine.counter]
  rw [hzero, Nat.zero_add] at hcounter
  cases pieces with
  | nil => exact ⟨_, rfl, hcounter, hbuf⟩
  | cons x pieces => exact ⟨_, issueAll_pieces (s := State.powerOn p) rfl v rfl hcarried, hcounter, hbuf⟩

/-! ## The digest of a message -/

@[simp] theorem hashedEngine_phase (p : Params) (bs : List Byte) : (hashedEngine p bs).phase = .finalized :=
  finalize_phase p _

/-- Settles O36: the commands of `hash` absorb the message into the initial engine of the configuration. -/
theorem hashDependsOnMessageOnly : Obligations.HashDependsOnMessageOnly := by
  intro v s m hf
  exact ⟨_, _, _, issueAll_hashCommands hf v m, issueAll_hashCommands (State.powerOn_fault _) v m,
    State.after_result .., State.after_result .., digestBytes_length _, hashedEngine_phase s.cfg m,
    (State.after_fault ..).trans hf⟩

end Sys2Proof.Machine
end

section
/-! SUPPORT. The blocks that HE.FINAL compresses, with their counters and flags (40_hash_engine.md R120, R122, R123). -/

namespace Sys2Proof.Machine

/-! ## The length -/

/-- `LEN64` as a number: the counter and the bits held (R120). -/
theorem messageBits_eq (e : Engine) :
    messageBits e = BitVec.ofNat 64 (e.t1.toNat * 2 ^ 32 + e.t0.toNat + 8 * e.buf.length) := by
  have happend : e.t1 ++ e.t0 = BitVec.ofNat 64 (e.t1.toNat * 2 ^ 32 + e.t0.toNat) := by
    apply BitVec.eq_of_toNat_eq
    have h0 := e.t0.isLt
    have h1 := e.t1.isLt
    rw [BitVec.toNat_append, ← Nat.shiftLeft_add_eq_or_of_lt h0, Nat.shiftLeft_eq, BitVec.toNat_ofNat,
      Nat.mod_eq_of_lt (by omega)]
  rw [messageBits, happend, ← BitVec.ofNat_add]

/-! ## The carries -/

/-- The advance to a counter of `n` bits past a multiple of 512 carries only from a low word of zero: under ZERO when
the sum is zero, under OVERFLOW whatever `n` is (R107, R123). -/
theorem counterCarries_padded {p : Params} {t0 : Word} {n : Nat} (ht0 : t0.toNat % 512 = 0) (hn : n < 512) :
    counterCarries p (t0 + BitVec.ofNat 32 n - 512#32) (t0 + BitVec.ofNat 32 n) =
      decide (t0 = 0#32 ∧ (n = 0 ∨ p.carryRule = .overflow)) := by
  cases hr : p.carryRule with
  | zero =>
    have hzero : t0 + BitVec.ofNat 32 n = 0#32 ↔ t0 = 0#32 ∧ n = 0 := by bv_omega
    simp only [counterCarries, hr, beq_eq_decide, hzero, reduceCtorEq, or_false]
  | overflow =>
    have hover : 2 ^ 32 ≤ (t0 + BitVec.ofNat 32 n - 512#32).toNat + 512 ↔ t0 = 0#32 := by bv_omega
    simp only [counterCarries, hr, hover, or_true, and_true]

/-- The high counter word of the block that ends `b` bytes past the last one compressed (R123). -/
theorem advanceCounter_t1_padded {p : Params} {e : Engine} {t0 : Word} {b : Nat} (ht0 : t0.toNat % 512 = 0)
    (hb : b < 64) (he : e.t0 = t0 + BitVec.ofNat 32 (8 * b) - 512#32) :
    (advanceCounter p e).t1 = e.t1 + seenCarry p.carryRule t0 b false := by
  rw [advanceCounter_t1, he, BitVec.sub_add_cancel, counterCarries_padded ht0 (by omega)]
  by_cases h0 : t0 = 0#32
  · by_cases hb0 : b = 0
    · simp [seenCarry, h0, hb0]
    · cases hr : p.carryRule <;> simp [seenCarry, h0, hb0]
  · simp [seenCarry, h0]

/-- A second block after a first with bytes in it carries as the first did. -/
theorem seenCarry_second {rule : CarryRule} {t0 : Word} {b : Nat} (hb : b ≠ 0) :
    seenCarry rule t0 b false + seenCarry rule t0 b false = seenCarry rule t0 b true := by
  by_cases h0 : t0 = 0#32
  · cases rule <;> simp [seenCarry, h0, hb]
  · simp [seenCarry, h0]

/-! ## The blocks -/

/-- The digest's chaining value: the last block is compressed with the counter as the tail leaves it, the length bytes
taken off again and the block counted. -/
theorem finalize_h {p : Params} {e : Engine} (h : e.buf.length ≤ 63) :
    (finalize p e).h =
      compress p (padTail p e).h ((padTail p e).t0 - 64#32 + 512#32)
        (advanceCounter p (lowerCounter 64 (padTail p e))).t1 (padTail p e).f
        ((padTail p e).buf ++ lengthBytes (messageBits e)) := by
  rw [finalize_eq p e h, compressBuffer_withBuf]
  simp

/-- The tail of at most 55 bytes: one block is left to compress (R120). -/
theorem padTail_oneBlock {p : Params} {e : Engine} (h : e.buf.length ≤ 55) :
    padTail p e =
      { e with t0 := e.t0 + BitVec.ofNat 32 (8 * e.buf.length) - 448#32, f := e.f || e.buf.length == 0,
               buf := e.buf ++ if e.buf.length = 55 then [p.padMerged]
                               else stopByte p :: zeros (54 - e.buf.length) ++ [markByte p] } := by
  unfold padTail
  by_cases h55 : e.buf.length = 55
  · have ht0 : e.t0 - 8#32 = e.t0 + 440#32 - 448#32 := by bv_omega
    rw [if_pos h55, if_pos h55, padMergedTail_eq p e h55]
    simp [lowerCounter, h55, ht0]
  · have ht0 : e.t0 - BitVec.ofNat 32 (440 - 8 * e.buf.length) - 8#32 =
        e.t0 + BitVec.ofNat 32 (8 * e.buf.length) - 448#32 := by bv_omega
    rw [if_neg h55, if_neg h55, if_pos (by omega), padShortTail_eq p e (by omega), ht0]

/-- The one block that finalization of at most 55 bytes compresses (R122, R123). -/
theorem finalize_h_oneBlock {p : Params} {e : Engine} (ht0 : e.t0.toNat % 512 = 0) (h : e.buf.length ≤ 55) :
    (finalize p e).h =
      compress p e.h (e.t0 + BitVec.ofNat 32 (8 * e.buf.length))
        (e.t1 + seenCarry p.carryRule e.t0 e.buf.length false) (e.f || e.buf.length == 0)
        ((e.buf ++ if e.buf.length = 55 then [p.padMerged]
                   else stopByte p :: zeros (54 - e.buf.length) ++ [markByte p]) ++ lengthBytes (messageBits e)) := by
  have hlow : (padTail p e).t0 - 64#32 = e.t0 + BitVec.ofNat 32 (8 * e.buf.length) - 512#32 := by
    rw [padTail_oneBlock h]
    simp only []
    bv_omega
  have hhigh := advanceCounter_t1_padded (p := p) (e := lowerCounter 64 (padTail p e)) ht0 (by omega) hlow
  rw [finalize_h (by omega), hhigh, hlow, BitVec.sub_add_cancel, lowerCounter_t1, padTail_oneBlock h]

/-- HE.FINAL returns the digest of the chaining value that finalization leaves, in phase FINALIZED (R121). -/
theorem exec_heFinal_digest {s : State} (hf : s.fault = false) (ho : s.operands = []) (hp : s.engine.phase = .ready)
    {h : Vector Word 8} (hh : (finalize s.cfg s.engine).h = h) :
    ∃ e', exec .heFinal s = .next { s with engine := e', pending := s.pending.tail,
                                           result := some (.result (.digest (digestBytes h))) } ∧
      e'.phase = .finalized := by
  refine ⟨finalize s.cfg s.engine, ?_, finalize_phase ..⟩
  rw [exec_heFinal_run hf ho hp, hh]
  simp only [State.done, State.complete]

/-- Settles O27: the tail of at most 55 bytes and the length make up the one block. -/
theorem heFinalOneBlock : Obligations.HeFinalOneBlock := by
  intro s hf ho hp ht0 hlen
  exact exec_heFinal_digest hf ho hp (by rw [finalize_h_oneBlock ht0 hlen, messageBits_eq])

/-- The tail of 56 to 63 bytes: the first block is compressed, and the second is left (R120, R123). -/
theorem padTail_twoBlocks {p : Params} {e : Engine} (ht0 : e.t0.toNat % 512 = 0) (h1 : 56 ≤ e.buf.length)
    (h2 : e.buf.length ≤ 63) :
    padTail p e =
      { e with h := compress p e.h (e.t0 + BitVec.ofNat 32 (8 * e.buf.length))
                      (e.t1 + seenCarry p.carryRule e.t0 e.buf.length false) e.f
                      (e.buf ++ stopByte p :: zeros (63 - e.buf.length)),
               t0 := e.t0 + BitVec.ofNat 32 (8 * e.buf.length) - 448#32,
               t1 := e.t1 + seenCarry p.carryRule e.t0 e.buf.length false,
               f := true, buf := zeros 55 ++ [markByte p] } := by
  have hlow : e.t0 - BitVec.ofNat 32 (512 - 8 * e.buf.length) =
      e.t0 + BitVec.ofNat 32 (8 * e.buf.length) - 512#32 := by bv_omega
  have hhigh := advanceCounter_t1_padded (p := p)
    (e := { e with t0 := e.t0 + BitVec.ofNat 32 (8 * e.buf.length) - 512#32 }) ht0 (by omega) rfl
  have hlast (x : Word) : x - 440#32 - 8#32 = x - 448#32 := by bv_omega
  rw [padTail, if_neg (by omega), if_neg (by omega), padLongTail_eq p e h1 h2, lowerCounter, hlow,
    compressBuffer_withBuf]
  simp only [advanceCounter_t0, hhigh, BitVec.sub_add_cancel, hlast]

/-- The two blocks that finalization of 56 to 63 bytes compresses (R122, R123). -/
theorem finalize_h_twoBlocks {p : Params} {e : Engine} (ht0 : e.t0.toNat % 512 = 0) (h1 : 56 ≤ e.buf.length)
    (h2 : e.buf.length ≤ 63) :
    (finalize p e).h =
      compress p
        (compress p e.h (e.t0 + BitVec.ofNat 32 (8 * e.buf.length))
          (e.t1 + seenCarry p.carryRule e.t0 e.buf.length false) e.f
          (e.buf ++ stopByte p :: zeros (63 - e.buf.length)))
        (e.t0 + BitVec.ofNat 32 (8 * e.buf.length)) (e.t1 + seenCarry p.carryRule e.t0 e.buf.length true) true
        (zeros 55 ++ [markByte p] ++ lengthBytes (messageBits e)) := by
  have hlow : (padTail p e).t0 - 64#32 = e.t0 + BitVec.ofNat 32 (8 * e.buf.length) - 512#32 := by
    rw [padTail_twoBlocks ht0 h1 h2]
    simp only []
    bv_omega
  have hhigh := advanceCounter_t1_padded (p := p) (e := lowerCounter 64 (padTail p e)) ht0 (by omega) hlow
  rw [finalize_h h2, hhigh, hlow, BitVec.sub_add_cancel, lowerCounter_t1, padTail_twoBlocks ht0 h1 h2]
  simp only [BitVec.add_assoc, seenCarry_second (show e.buf.length ≠ 0 by omega)]

/-- Settles O28: the tail of 56 to 63 bytes and the length make up the two blocks. -/
theorem heFinalTwoBlocks : Obligations.HeFinalTwoBlocks := by
  intro s hf ho hp ht0 h1 h2
  exact exec_heFinal_digest hf ho hp (by rw [finalize_h_twoBlocks ht0 h1 h2, messageBits_eq])

end Sys2Proof.Machine
end

section
/-! SUPPORT. The compression function: calls of `Gmix` on disjoint words commute (40_hash_engine.md R112, R113), and the
working array in each profile (R110, R140). -/

namespace Sys2Proof.Machine

/-! ## Operations on some words of the working array -/

/-- An operation on the working array that writes no word outside `l`, and whose words in `l` depend on words in `l`
alone. -/
structure ActsWithin (l : List (Fin 16)) (f : Vector Word 16 → Vector Word 16) : Prop where
  keeps : ∀ v, ∀ i ∉ l, (f v)[i] = v[i]
  reads : ∀ v w, (∀ i ∈ l, v[i] = w[i]) → ∀ i ∈ l, (f v)[i] = (f w)[i]

section
variable {l k : List (Fin 16)} {f g : Vector Word 16 → Vector Word 16}

theorem ActsWithin.comp (hf : ActsWithin l f) (hg : ActsWithin l g) : ActsWithin l (f ∘ g) where
  keeps v i hi := (hf.keeps (g v) i hi).trans (hg.keeps v i hi)
  reads v w h := hf.reads (g v) (g w) (hg.reads v w h)

/-- Writing one word of `l` with a value read from `l`. -/
theorem ActsWithin.set {a : Fin 16} {x : Vector Word 16 → Word} (ha : a ∈ l)
    (hx : ∀ v w : Vector Word 16, (∀ i ∈ l, v[i] = w[i]) → x v = x w) :
    ActsWithin l fun v => v.set a (x v) where
  keeps v i hi := Vector.getElem_set_ne _ _ fun h => hi (Fin.ext h ▸ ha)
  reads v w h i hi := by
    simp only [Fin.getElem_fin, Vector.getElem_set]
    rw [hx v w h]
    exact congrArg _ (h i hi)

/-- Operations on disjoint words commute: neither reads or writes what the other does. -/
theorem ActsWithin.comm (hf : ActsWithin l f) (hg : ActsWithin k g) (hd : ∀ i ∈ l, i ∉ k) (v : Vector Word 16) :
    f (g v) = g (f v) := by
  refine Vector.ext fun i hi => ?_
  by_cases hl : (⟨i, hi⟩ : Fin 16) ∈ l
  · calc (f (g v))[(⟨i, hi⟩ : Fin 16)] = (f v)[(⟨i, hi⟩ : Fin 16)] :=
          hf.reads _ _ (fun j hj => hg.keeps v j (hd j hj)) _ hl
      _ = (g (f v))[(⟨i, hi⟩ : Fin 16)] := (hg.keeps (f v) _ (hd _ hl)).symm
  · by_cases hk : (⟨i, hi⟩ : Fin 16) ∈ k
    · calc (f (g v))[(⟨i, hi⟩ : Fin 16)] = (g v)[(⟨i, hi⟩ : Fin 16)] := hf.keeps (g v) _ hl
        _ = (g (f v))[(⟨i, hi⟩ : Fin 16)] :=
          hg.reads _ _ (fun j hj => (hf.keeps v j fun hj' => hd j hj' hj).symm) _ hk
    · calc (f (g v))[(⟨i, hi⟩ : Fin 16)] = (g v)[(⟨i, hi⟩ : Fin 16)] := hf.keeps (g v) _ hl
        _ = v[(⟨i, hi⟩ : Fin 16)] := hg.keeps v _ hk
        _ = (f v)[(⟨i, hi⟩ : Fin 16)] := (hf.keeps v _ hl).symm
        _ = (g (f v))[(⟨i, hi⟩ : Fin 16)] := (hg.keeps (f v) _ hk).symm
end

/-! ## `Gmix` -/

/-- `Gmix` reads and writes its four words alone (R112). -/
theorem gmix_actsWithin (a b c d : Fin 16) (x1 x2 k1 k2 : Word) :
    ActsWithin [a, b, c, d] fun v => gmix v a b c d x1 x2 k1 k2 := by
  have add (x : Word) : ActsWithin [a, b, c, d] fun v => v.set a (v[a] + v[b] + x) :=
    .set (by simp) fun v w h => by rw [h a (by simp), h b (by simp)]
  have rotD (n : Nat) : ActsWithin [a, b, c, d] fun v => v.set d (rotr32 (v[d] ^^^ v[a]) n) :=
    .set (by simp) fun v w h => by rw [h a (by simp), h d (by simp)]
  have sum : ActsWithin [a, b, c, d] fun v => v.set c (v[c] + v[d]) :=
    .set (by simp) fun v w h => by rw [h c (by simp), h d (by simp)]
  have rotB (n : Nat) : ActsWithin [a, b, c, d] fun v => v.set b (rotr32 (v[b] ^^^ v[c]) n) :=
    .set (by simp) fun v w h => by rw [h b (by simp), h c (by simp)]
  have half (x : Word) (m n : Nat) := (rotB n).comp (sum.comp ((rotD m).comp (add x)))
  exact (half (x2 ^^^ k2) 8 7).comp (half (x1 ^^^ k1) 16 12)

/-- The words of the working array that a group's call uses (R113). -/
def Group.words (g : Group) : List (Fin 16) := [g.a, g.b, g.c, g.d]

theorem mixGroup_actsWithin (p : Params) (m : Vector Word 16) (row : Vector (Fin 16) 16) (g : Group) :
    ActsWithin g.words fun v => mixGroup p m row v g :=
  gmix_actsWithin ..

/-- Calls on groups that share no word may be made in any order. -/
theorem foldl_mixGroup_perm (p : Params) (m v : Vector Word 16) (row : Vector (Fin 16) 16) {gs hs : List Group}
    (hperm : gs.Perm hs) (hd : ∀ g ∈ hs, ∀ h ∈ hs, g ≠ h → ∀ i ∈ g.words, i ∉ h.words) :
    gs.foldl (mixGroup p m row) v = hs.foldl (mixGroup p m row) v := by
  refine hperm.foldl_eq' (fun g hg h hh z => ?_) v
  by_cases heq : g = h
  · rw [heq]
  · exact ((mixGroup_actsWithin p m row g).comm (mixGroup_actsWithin p m row h)
      (hd g (hperm.mem_iff.mp hg) h (hperm.mem_iff.mp hh) heq) z).symm

/-- The four columns share no word. -/
theorem columns_disjoint :
    ∀ g ∈ groups.take 4, ∀ h ∈ groups.take 4, g ≠ h → ∀ i ∈ g.words, i ∉ h.words := by decide

/-- The four diagonals share no word. -/
theorem diagonals_disjoint :
    ∀ g ∈ groups.drop 4, ∀ h ∈ groups.drop 4, g ≠ h → ∀ i ∈ g.words, i ∉ h.words := by decide

/-- Settles O29: the groups of a half-round share no word. -/
theorem halfRoundOrderFree : Obligations.HalfRoundOrderFree := fun p m v row _ =>
  ⟨fun h => foldl_mixGroup_perm p m v row h columns_disjoint,
    fun h => foldl_mixGroup_perm p m v row h diagonals_disjoint⟩

/-! ## The working array -/

/-- Four words in a row, read one by one. -/
theorem take_four_drop_toList {n : Nat} (x : Vector Word n) (k : Nat) (h : k + 4 ≤ n) :
    (x.toList.drop k).take 4 = [x[k], x[k + 1], x[k + 2], x[k + 3]] := by
  rw [List.drop_eq_getElem_cons (by simp; omega), List.drop_eq_getElem_cons (by simp; omega),
    List.drop_eq_getElem_cons (by simp; omega), List.drop_eq_getElem_cons (by simp; omega)]
  simp

theorem counterWords_doc {p : Params} (h : p.profile = .doc) (t0 t1 : Word) (f : Bool) :
    counterWords p t0 t1 f = #v[p.iv[4] ^^^ t0, p.iv[5] ^^^ t1, if f then ~~~p.iv[6] else p.iv[6], p.iv[7]] := by
  simp only [counterWords, h]

theorem counterWords_blake256 {p : Params} (h : p.profile = .blake256) (t0 t1 : Word) (f : Bool) :
    counterWords p t0 t1 f =
      if f then #v[p.consts[4], p.consts[5], p.consts[6], p.consts[7]]
      else #v[p.consts[4] ^^^ t0, p.consts[5] ^^^ t0, p.consts[6] ^^^ t1, p.consts[7] ^^^ t1] := by
  simp only [counterWords, h]

theorem fixedWords_doc {p : Params} (h : p.profile = .doc) :
    fixedWords p = #v[p.iv[0], p.iv[1], p.iv[2], p.iv[3]] := by
  simp only [fixedWords, h]

theorem fixedWords_blake256 {p : Params} (h : p.profile = .blake256) :
    fixedWords p = #v[p.consts[0], p.consts[1], p.consts[2], p.consts[3]] := by
  simp only [fixedWords, h]

section
variable (p : Params) (h : Vector Word 8) (t0 t1 : Word) (f : Bool)

theorem workingArray_take : (workingArray p h t0 t1 f).toList.take 8 = h.toList := by
  have hlow := take_four_drop_toList h 0 (by decide)
  have hhigh := take_four_drop_toList h 4 (by decide)
  rw [List.take_of_length_le (by simp)] at hhigh
  rw [← List.take_append_drop 4 h.toList, hhigh]
  exact (congrArg (· ++ _) hlow).symm

theorem workingArray_fixed : ((workingArray p h t0 t1 f).toList.drop 8).take 4 = (fixedWords p).toList.take 4 :=
  (take_four_drop_toList (fixedWords p) 0 (by decide)).symm

theorem workingArray_counter : (workingArray p h t0 t1 f).toList.drop 12 = (counterWords p t0 t1 f).toList.take 4 :=
  (take_four_drop_toList (counterWords p t0 t1 f) 0 (by decide)).symm
end

/-- With `F` set the counter does not enter the working array in BLAKE256 (R140). -/
theorem workingArray_final_blake256 {p : Params} (hp : p.profile = .blake256) (h : Vector Word 8)
    (t0 t1 u0 u1 : Word) : workingArray p h t0 t1 true = workingArray p h u0 u1 true := by
  simp only [workingArray, counterWords_blake256 hp, if_true]

/-- Settles O30, profile by profile. -/
theorem counterAndFlagByProfile : Obligations.CounterAndFlagByProfile := by
  intro p h t0 t1 u0 u1 f block
  refine ⟨workingArray_take .., fun hp => ?_, fun hp => ⟨?_, ?_, ?_, ?_⟩⟩
  · have hcounter := counterWords_doc hp t0 t1 f
    refine ⟨congrArg (·[0]) hcounter, congrArg (·[1]) hcounter, congrArg (·[2]) hcounter,
      congrArg (·[3]) hcounter, ?_⟩
    rw [workingArray_fixed, fixedWords_doc hp]
    exact (take_four_drop_toList p.iv 0 (by decide)).symm
  · rw [workingArray_fixed, fixedWords_blake256 hp]
    exact (take_four_drop_toList p.consts 0 (by decide)).symm
  · rw [workingArray_counter, counterWords_blake256 hp]
    rfl
  · rw [workingArray_counter, counterWords_blake256 hp]
    exact (take_four_drop_toList p.consts 4 (by decide)).symm
  · rw [compress, compress, workingArray_final_blake256 hp h t0 t1 u0 u1]

end Sys2Proof.Machine
end

section
/-! The TargetCodec's statements and their support (41_target_codec.md): TC.DECODE and TC.ENCODE with the operands they
take, the overflow condition of the reference `DECODE` (R150), and the exponent and mantissa of the reference `ENCODE`
(R155). -/

namespace Sys2Proof.Machine

/-! ## The commands, whatever the codec -/

theorem exec_tcDecode_run {s : State} {c : Word} (hf : s.fault = false) (ho : s.operands = [.u32 c]) :
    exec .tcDecode s = .next (s.done (.target (decodeTarget s.cfg c))) := by
  rw [exec, execTcDecode, ho]
  exact serve_run _ _ _ _ c hf

theorem exec_tcEncode_run {s : State} {x : Target} (hf : s.fault = false) (ho : s.operands = [.u256 x]) :
    exec .tcEncode s = .next (s.done (.compact (encodeTarget s.cfg x))) := by
  rw [exec, execTcEncode, ho]
  exact serve_run _ _ _ _ x hf

/-- Settles O56, by what each command does with the operand it takes. -/
theorem everyCodecCompletes : Obligations.EveryCodecCompletes :=
  ⟨fun _ _ hf ho => exec_tcDecode_run hf ho, fun _ _ hf ho => exec_tcEncode_run hf ho⟩

theorem decodeTarget_reference {p : Params} (h : p.codec = .reference) (c : Word) :
    decodeTarget p c = referenceDecode c := by
  simp only [decodeTarget, h]

theorem encodeTarget_reference {p : Params} (h : p.codec = .reference) (t : Target) :
    encodeTarget p t = referenceEncode t := by
  simp only [encodeTarget, h]

/-! ## The reference `DECODE` -/

theorem negCondition_eq_true {word : Nat} {sign : Bool} :
    negCondition word sign = true ↔ word ≠ 0 ∧ sign = true := by
  simp [negCondition]

theorem ovfCondition_eq_true {word size : Nat} :
    ovfCondition word size = true ↔
      word ≠ 0 ∧ (34 < size ∨ (0xFF < word ∧ 33 < size) ∨ (0xFFFF < word ∧ 32 < size)) := by
  simp [ovfCondition, or_assoc]

theorem mantissa_le (size word : Nat) : mantissa size word ≤ word := by
  unfold mantissa
  split
  · exact Nat.div_le_self ..
  · exact le_rfl

theorem scaledValue_lt {size word : Nat} (h : word < 2 ^ 256) : scaledValue size word < 2 ^ 256 := by
  unfold scaledValue
  split
  · exact h
  · exact Nat.mod_lt _ (by positivity)

/-- The target of a decode is its scaled mantissa, which 256 bits hold. -/
theorem referenceDecode_value (c : Word) :
    (referenceDecode c).value.toNat =
      scaledValue (c.extractLsb' 24 8).toNat
        (mantissa (c.extractLsb' 24 8).toNat (c.extractLsb' 0 23).toNat) := by
  have hword : (c.extractLsb' 0 23).toNat < 2 ^ 256 := (BitVec.isLt _).trans (by decide)
  exact Nat.mod_eq_of_lt (scaledValue_lt ((mantissa_le ..).trans_lt hword))

/-- Settles O37, by the value and the two conditions of the reference decode. -/
theorem tcDecodeResult : Obligations.TcDecodeResult := by
  refine ⟨by decide, fun s c hf ho hcodec => ⟨referenceDecode c, ?_, referenceDecode_value c,
    negCondition_eq_true, ovfCondition_eq_true⟩⟩
  rw [exec_tcDecode_run hf ho, decodeTarget_reference hcodec]
  rfl

/-- A mantissa of three bytes overflows exactly when its scaled value needs more than 32 bytes (R150): at size 32 none
does, at 33 those of three bytes, at 34 those of two or more, above that every one but 0. -/
theorem ovfCondition_iff_tooWide {word size : Nat} (hw : word < 2 ^ 24) :
    ovfCondition word size = true ↔ 3 < size ∧ 2 ^ 256 ≤ word * 2 ^ (8 * (size - 3)) := by
  rw [ovfCondition_eq_true]
  obtain h | rfl | rfl | h : size ≤ 32 ∨ size = 33 ∨ size = 34 ∨ 35 ≤ size := by omega
  · have hscale : 2 ^ (8 * (size - 3)) ≤ 2 ^ 232 := Nat.pow_le_pow_right (by decide) (by omega)
    have hfits : word * 2 ^ (8 * (size - 3)) < 2 ^ 24 * 2 ^ 232 := Nat.mul_lt_mul_of_lt_of_le hw hscale (by positivity)
    omega
  · omega
  · omega
  · have hscale : 2 ^ 256 ≤ 2 ^ (8 * (size - 3)) := Nat.pow_le_pow_right (by decide) (by omega)
    have hwide (h0 : word ≠ 0) : 2 ^ 256 ≤ word * 2 ^ (8 * (size - 3)) :=
      hscale.trans (Nat.le_mul_of_pos_left _ (Nat.pos_of_ne_zero h0))
    rcases eq_or_ne word 0 with rfl | h0
    · simp
    · exact ⟨fun _ => ⟨by omega, hwide h0⟩, fun _ => ⟨h0, .inl (by omega)⟩⟩

/-- Settles O38: above size 3 the mantissa is not shifted, and up to size 3 nothing overflows. -/
theorem overflowMeansTooWide : Obligations.OverflowMeansTooWide := by
  intro c size
  have hword : (c.extractLsb' 0 23).toNat < 2 ^ 24 := (BitVec.isLt _).trans (by decide)
  refine (ovfCondition_iff_tooWide ((mantissa_le ..).trans_lt hword)).trans (and_congr_right fun h => ?_)
  rw [mantissa, if_neg (Nat.not_le.mpr h)]

/-! ## The sizes of a target -/

theorem bitLength_le_iff {n k : Nat} : bitLength n ≤ k ↔ n < 2 ^ k := by
  unfold bitLength
  split
  next h => simp [h]
  next h => exact Nat.log2_lt h

theorem byteSize_le_iff {t k : Nat} : byteSize t ≤ k ↔ t < 2 ^ (8 * k) := by
  rw [← bitLength_le_iff, byteSize]
  omega

/-! ## The mantissa of a target at an exponent -/

/-- The target shifted to an exponent: the mantissa whose lowest byte is byte `e - 3` of the target (R155). -/
def shiftedTo (e t : Nat) : Nat := t * 2 ^ 24 / 2 ^ (8 * e)

theorem shiftedTo_of_le {e : Nat} (h : e ≤ 3) (t : Nat) : shiftedTo e t = t * 2 ^ (8 * (3 - e)) := by
  have hpow : 2 ^ 24 = 2 ^ (8 * (3 - e)) * 2 ^ (8 * e) := by rw [← Nat.pow_add]; congr 1; omega
  rw [shiftedTo, hpow, ← Nat.mul_assoc, Nat.mul_div_cancel _ (by positivity)]

theorem shiftedTo_of_ge {e : Nat} (h : 3 ≤ e) (t : Nat) : shiftedTo e t = t / 2 ^ (8 * (e - 3)) := by
  have hpow : 2 ^ (8 * e) = 2 ^ (8 * (e - 3)) * 2 ^ 24 := by rw [← Nat.pow_add]; congr 1; omega
  rw [shiftedTo, hpow, Nat.mul_div_mul_right _ _ (by positivity)]

/-- One exponent more drops the lowest byte. -/
theorem shiftedTo_succ (e t : Nat) : shiftedTo (e + 1) t = shiftedTo e t / 2 ^ 8 := by
  rw [shiftedTo, shiftedTo, Nat.div_div_eq_div_mul, ← Nat.pow_add, Nat.mul_succ]

/-- Three bytes hold the mantissa exactly when the exponent's bytes hold the target. -/
theorem shiftedTo_lt_iff {e t : Nat} : shiftedTo e t < 2 ^ 24 ↔ byteSize t ≤ e := by
  rw [shiftedTo, Nat.div_lt_iff_lt_mul (by positivity), Nat.mul_comm, Nat.mul_lt_mul_left (by positivity),
    byteSize_le_iff]

/-- At its size in bytes the mantissa of a target other than 0 fills its top byte. -/
theorem le_shiftedTo_byteSize {t : Nat} (h : t ≠ 0) : 2 ^ 16 ≤ shiftedTo (byteSize t) t := by
  obtain ⟨k, hk⟩ : ∃ k, byteSize t = k + 1 := by
    refine Nat.exists_eq_succ_of_ne_zero fun h0 => h ?_
    have ht := byteSize_le_iff.mp h0.le
    omega
  have hbelow : ¬ shiftedTo k t < 2 ^ 24 := by rw [shiftedTo_lt_iff]; omega
  rw [hk, shiftedTo_succ]
  omega

/-- The top bytes of R155 are the mantissa at the target's size; its reduction to 64 bits drops nothing. -/
theorem topBytes_eq (t : Nat) : topBytes t = shiftedTo (byteSize t) t := by
  have hlt : shiftedTo (byteSize t) t < 2 ^ 24 := shiftedTo_lt_iff.mpr le_rfl
  unfold topBytes
  split
  next h =>
    have ht : t < 2 ^ 24 := byteSize_le_iff.mp h
    rw [Nat.mod_eq_of_lt (ht.trans (by decide)), shiftedTo_of_le h]
  next h =>
    rw [shiftedTo_of_ge (by omega)] at hlt ⊢
    exact Nat.mod_eq_of_lt (hlt.trans (by decide))

/-! ## The reference `ENCODE` -/

/-- An exponent and a mantissa that encode a target as R155 does. -/
structure Encodes (t e m : Nat) : Prop where
  exponent_le : e ≤ 33
  mantissa_eq : m = shiftedTo e t
  mantissa_lt : m < 2 ^ 23
  le_mantissa : t ≠ 0 → 2 ^ 15 ≤ m

theorem adjusted_eq {c : Nat} (h : c < 2 ^ 24) (size : Nat) :
    adjusted c size = if 2 ^ 23 ≤ c then (c / 2 ^ 8, size + 1) else (c, size) := by
  have htop : c.testBit 23 = true ↔ 2 ^ 23 ≤ c := by
    rw [Nat.testBit_eq_decide_div_mod_eq, decide_eq_true_iff]
    omega
  simp only [adjusted, htop]

/-- The adjustment moves a mantissa whose top bit is set to the next exponent; both ways the sign flag is clear. -/
theorem encodes_adjusted {t : Nat} (ht : t < 2 ^ 256) :
    Encodes t (adjusted (topBytes t) (byteSize t)).2 (adjusted (topBytes t) (byteSize t)).1 := by
  have hsize : byteSize t ≤ 32 := byteSize_le_iff.mpr ht
  have hlt : shiftedTo (byteSize t) t < 2 ^ 24 := shiftedTo_lt_iff.mpr le_rfl
  have hle : t ≠ 0 → 2 ^ 16 ≤ shiftedTo (byteSize t) t := le_shiftedTo_byteSize
  rw [topBytes_eq, adjusted_eq hlt]
  split
  next h =>
    exact ⟨by omega, (shiftedTo_succ ..).symm, by omega, fun _ => by omega⟩
  next h =>
    exact ⟨by omega, rfl, by omega, fun h0 => (hle h0).trans' (by decide)⟩

/-- The fields of a compact value put together from an exponent and a mantissa with a clear sign flag. -/
theorem compact_fields {m e : Nat} (hm : m < 2 ^ 23) (he : e < 2 ^ 8) :
    let c := BitVec.ofNat 32 (m ||| e * 2 ^ 24)
    (c.extractLsb' 24 8).toNat = e ∧ (c.extractLsb' 0 23).toNat = m ∧ c.getLsbD 23 = false := by
  intro c
  have hc : c.toNat = e * 2 ^ 24 + m := by
    rw [BitVec.toNat_ofNat, Nat.or_comm, ← Nat.shiftLeft_eq, ← Nat.shiftLeft_add_eq_or_of_lt (by omega),
      Nat.shiftLeft_eq]
    omega
  simp only [BitVec.getLsbD, Nat.testBit_eq_decide_div_mod_eq, BitVec.extractLsb'_toNat,
    Nat.shiftRight_eq_div_pow, hc, decide_eq_false_iff_not]
  omega

theorem referenceEncode_fields (t : Target) :
    (referenceEncode t).getLsbD 23 = false ∧
    Encodes t.toNat ((referenceEncode t).extractLsb' 24 8).toNat ((referenceEncode t).extractLsb' 0 23).toNat := by
  have h := encodes_adjusted t.isLt
  obtain ⟨hexp, hman, hsign⟩ := compact_fields h.mantissa_lt (h.exponent_le.trans_lt (by decide))
  refine ⟨hsign, ?_⟩
  rw [referenceEncode, hexp, hman]
  exact h

theorem referenceEncode_zero : referenceEncode 0#256 = 0#32 := by decide

/-- Settles O39, by the exponent and mantissa of the reference encode. -/
theorem tcEncodeResult : Obligations.TcEncodeResult := by
  refine ⟨by decide, fun s x hf ho hcodec => ?_⟩
  obtain ⟨hsign, h⟩ := referenceEncode_fields x
  refine ⟨referenceEncode x, ?_, hsign, h.exponent_le, fun h0 => h0 ▸ referenceEncode_zero,
    fun h0 => h.le_mantissa (BitVec.toNat_ne.mp h0), fun he => ?_, fun he => ?_⟩
  · rw [exec_tcEncode_run hf ho, encodeTarget_reference hcodec]
    rfl
  · exact h.mantissa_eq.trans (shiftedTo_of_le he _)
  · exact h.mantissa_eq.trans (shiftedTo_of_ge he.le _)

/-! ## The round trip -/

/-- Decoding the mantissa of a target at an exponent clears the bytes below it (R156). -/
theorem scaledValue_shiftedTo {t : Nat} (ht : t < 2 ^ 256) (e : Nat) :
    scaledValue e (mantissa e (shiftedTo e t)) = t / 2 ^ (8 * (e - 3)) * 2 ^ (8 * (e - 3)) := by
  unfold scaledValue mantissa
  split
  next h =>
    rw [shiftedTo_of_le h, Nat.mul_div_cancel _ (by positivity), Nat.sub_eq_zero_of_le h]
    simp
  next h =>
    rw [shiftedTo_of_ge (by omega), Nat.mod_eq_of_lt ((Nat.div_mul_le_self ..).trans_lt ht)]

/-- Settles O40: the sign flag is clear, and the mantissa scaled back is at most the target. -/
theorem codecRoundTrip : Obligations.CodecRoundTrip := by
  intro t e d low
  obtain ⟨hsign, h⟩ := referenceEncode_fields t
  have hvalue : d.value.toNat = t.toNat / low * low := by
    rw [referenceDecode_value, h.mantissa_eq, scaledValue_shiftedTo t.isLt]
  have hle : t.toNat / low * low ≤ t.toNat := Nat.div_mul_le_self ..
  have hneg : d.neg = false := by
    rw [← Bool.not_eq_true]
    exact fun hn => Bool.false_ne_true (hsign.symm.trans (negCondition_eq_true.mp hn).2)
  have hovf : d.ovf = false := by
    rw [← Bool.not_eq_true]
    intro ho
    obtain ⟨he, hwide⟩ := (overflowMeansTooWide _).mp ho
    rw [h.mantissa_eq, shiftedTo_of_ge he.le] at hwide
    exact absurd (hwide.trans hle) (Nat.not_le.mpr t.isLt)
  refine ⟨hneg, hovf, hvalue, hvalue ▸ hle, ?_⟩
  rw [← BitVec.toNat_inj, hvalue, ← Nat.dvd_iff_mod_eq_zero, Nat.dvd_iff_div_mul_eq]

end Sys2Proof.Machine
end

section
/-! The ProofOfWorkValidator's statements and their support (42_pow_validator.md): the verdict of POW.CHECK (R170) and its
boundary (R173). -/

namespace Sys2Proof.Machine

/-- R170: the verdict is the conjunction of the conditions on the decoded target and on the digest. -/
theorem meetsTarget_eq_true {p : Params} {digest : List Byte} {c : Word} :
    meetsTarget p digest c = true ↔
      (decodeTarget p c).neg = false ∧ (decodeTarget p c).ovf = false ∧ (decodeTarget p c).value ≠ 0#256 ∧
      (decodeTarget p c).value.toNat ≤ p.powLimit.toNat ∧ leNat digest ≤ (decodeTarget p c).value.toNat := by
  simp [meetsTarget, BitVec.le_def, and_assoc]

/-- Settles O41, by the conditions of the verdict. -/
theorem powCheckResult : Obligations.PowCheckResult :=
  ⟨rfl, fun _ _ _ hf ho hlen => ⟨_, exec_powCheck_run hf ho hlen, meetsTarget_eq_true⟩⟩

/-- Settles O42: at the boundary the conditions of the verdict hold, and each clause that rejects breaks one of them. -/
theorem powBoundary : Obligations.PowBoundary := by
  intro s hash c t neg ovf hf ho hlen hd gives
  have hgives {ok : Bool} (h : meetsTarget s.cfg hash c = ok) : gives ok := h ▸ exec_powCheck_run hf ho hlen
  have hmeets : meetsTarget s.cfg hash c = true ↔
      neg = false ∧ ovf = false ∧ t ≠ 0#256 ∧ t.toNat ≤ s.cfg.powLimit.toNat ∧ leNat hash ≤ t.toNat := by
    simpa only [hd] using meetsTarget_eq_true (p := s.cfg) (digest := hash) (c := c)
  have hrejects (h : t ≠ 0#256 → t.toNat ≤ s.cfg.powLimit.toNat → ¬ leNat hash ≤ t.toNat) : gives false := by
    refine hgives (Bool.eq_false_iff.mpr fun hok => ?_)
    obtain ⟨-, -, hzero, hlimit, hle⟩ := hmeets.mp hok
    exact h hzero hlimit hle
  refine ⟨fun hneg hovf hpos hlimit heq => ?equal, fun _ _ _ _ heq => ?above, fun hzero => ?zero, fun hlimit => ?limit⟩
  case equal => exact hgives (hmeets.mpr ⟨hneg, hovf, BitVec.toNat_ne.mpr hpos.ne', hlimit, heq.le⟩)
  case above => exact hrejects fun _ _ => by omega
  case zero => exact hrejects fun ht => absurd (BitVec.eq_of_toNat_eq hzero) ht
  case limit => exact hrejects fun _ hle => absurd hle hlimit.not_ge

end Sys2Proof.Machine
end

section
/-! The DifficultyRetargeter's statements and their support (43_retarget.md): the clamp (R182), DR.RETARGET (R185), the
walk (R191), the branches of DR.NEXT (R190, R192, R193), and views that keep the host's duties (R181). -/

namespace Sys2Proof.Machine

/-! ## The engine and the other units -/

/-- A served command that ignores the engine ends alike under another one. -/
theorem serve_withEngine {α : Type} {s t : State} {opc : Byte} {o : Option α} {n : Nat} {run run' : α → State}
    (e : Engine) (h : s.serve opc o n run = .next t) (hrun : ∀ a, run' a = { run a with engine := e }) :
    { s with engine := e }.serve opc o n run' = .next { t with engine := e } := by
  rcases serve_cases s opc n run h with ⟨hf, rfl⟩ | ⟨hf, rfl, rfl⟩ | ⟨hf, a, rfl, rfl⟩
  · exact serve_latched _ _ _ _ _ hf
  · exact serve_mismatch _ _ _ _ hf
  · exact (serve_run { s with engine := e } opc n run' a hf).trans (congrArg _ (hrun a))

theorem endNext_withEngine (s : State) (e : Engine) (x : Except ChainFault Word) :
    { s with engine := e }.endNext x = { s.endNext x with engine := e } := by
  cases x <;> rfl

/-- Settles O19: what each of the commands serves ignores the engine. -/
theorem otherUnitsIgnoreEngine : Obligations.OtherUnitsIgnoreEngine := by
  intro i s t e hi h
  simp only [List.mem_cons, List.not_mem_nil, or_false] at hi
  rcases hi with rfl | rfl | rfl | rfl | rfl
  · exact serve_withEngine e h fun _ => rfl
  · exact serve_withEngine e h fun _ => rfl
  · exact serve_withEngine e h fun _ => rfl
  · exact serve_withEngine e h fun _ => rfl
  · exact serve_withEngine e h fun _ => endNext_withEngine s e _

/-! ## The clamp -/

section
variable {p : Params} (hp : p.SourceTimes) (a h : Int)
include hp

theorem clampLow_source :
    clampLow p a h = if a < 900 ∧ 3500 ≤ h then 3495 else if a < 3130 ∧ h < 3500 then 3130 else a := by
  obtain ⟨-, -, htime, hheight⟩ := hp
  simp only [clampLow, htime, hheight]
  rfl

/-- R182 with the source's values. -/
theorem clamp_source :
    clamp p a h =
      min 7200 (if a < 900 ∧ 3500 ≤ h then 3495 else if a < 3130 ∧ h < 3500 then 3130 else a) := by
  obtain ⟨-, -, htime, -⟩ := id hp
  rw [clamp, clampLow_source hp, htime]
  exact (min_def_lt _ _).symm

theorem clamp_pos : 0 < clamp p a h := by
  rw [clamp_source hp]
  omega

theorem clamp_le : clamp p a h ≤ 7200 := by
  rw [clamp_source hp]
  exact min_le_left _ _
end

/-- The height enters the clamp only by its side of the threshold. -/
theorem clamp_congr_height {p : Params} {h k : Int} (hk : p.heightThreshold ≤ h ↔ p.heightThreshold ≤ k) (a : Int) :
    clamp p a h = clamp p a k := by
  simp only [clamp, clampLow, hk, ← not_le]

/-- Settles O44, by the clamp with the source's values. -/
theorem clampRanges : Obligations.ClampRanges := by
  intro p a h hp
  rw [clamp_source hp]
  omega

/-! ## DR.RETARGET -/

/-- The product of a positive timespan, by the configured width (R187). -/
theorem retargetProduct_eq {p : Params} {a : Int} (t : Target) (ha : 0 < a) :
    retargetProduct p t a =
      if p.productWidth = .w256 then t.toNat * a.toNat % 2 ^ 256 else t.toNat * a.toNat := by
  obtain ⟨n, rfl⟩ := Int.eq_ofNat_of_zero_le ha.le
  unfold retargetProduct
  split
  · rw [if_pos ‹_›, BitVec.toNat_mul, BitVec.ofInt_natCast, BitVec.toNat_ofNat]
    exact Nat.mul_mod_mod _ _ _
  · simp [*]

/-- R185: the new compact value where retargeting is on, with the source's values. -/
theorem retarget_source {p : Params} (hp : p.SourceTimes) (hr : p.noRetargeting = false) (old : Word)
    (span height : Int) :
    retarget p old span height =
      encodeTarget p (BitVec.ofNat 256
        (min (retargetProduct p (decodeTarget p old).value (clamp p span height) / 3600) p.powLimit.toNat)) := by
  obtain ⟨-, -, htime, -⟩ := hp
  simp [retarget, retargetValue, hr, htime]

theorem retarget_off {p : Params} (hr : p.noRetargeting = true) (old : Word) (span height : Int) :
    retarget p old span height = old := by
  simp [retarget, hr]

theorem exec_drRetarget_run {s : State} {old : Word} {span : BitVec 64} {height : BitVec 32} (hf : s.fault = false)
    (ho : s.operands = [.u32 old, .i64 span, .i32 height]) :
    exec .drRetarget s = .next (s.done (.compact (retarget s.cfg old span.toInt height.toInt))) := by
  rw [exec, execDrRetarget, ho]
  exact serve_run _ _ _ _ (old, span.toInt, height.toInt) hf

/-- Settles O45: the clamped timespan is positive, so the product is the one its width gives. -/
theorem drRetargetResult : Obligations.DrRetargetResult := by
  intro s old span height hf ho hp a t product answers
  have hanswers {c : Word} (h : retarget s.cfg old span.toInt height.toInt = c) : answers c :=
    h ▸ exec_drRetarget_run hf ho
  refine ⟨fun hr => hanswers (retarget_off hr _ _ _), fun hr => hanswers ?_⟩
  rw [retarget_source hp hr, retargetProduct_eq _ (clamp_pos hp _ _)]

/-- The product width enters DR.RETARGET only by the product. -/
theorem retarget_withWidth (p : Params) (w : ProductWidth) (old : Word) (span height : Int) :
    retarget { p with productWidth := w } old span height =
      if p.noRetargeting then old
      else encodeTarget p (BitVec.ofNat 256
        (min (retargetProduct { p with productWidth := w } (decodeTarget p old).value (clamp p span height) /
          p.timespan.toNat) p.powLimit.toNat)) :=
  rfl

/-- Settles O46: a target below 2^243 times a timespan of at most 7200 stays below 2^256. -/
theorem productWidthsAgree : Obligations.ProductWidthsAgree := by
  intro p old span height hp hlimit hle
  have hpos := clamp_pos hp span height
  have hfits : (decodeTarget p old).value.toNat * (clamp p span height).toNat < 2 ^ 256 :=
    calc _ ≤ 2 ^ 243 * 7200 :=
          Nat.mul_le_mul (hle.trans hlimit.le) (Int.toNat_le.mpr (clamp_le hp span height))
      _ < 2 ^ 256 := by norm_num
  have hprod (w : ProductWidth) :
      retargetProduct { p with productWidth := w } (decodeTarget p old).value (clamp p span height) =
        (decodeTarget p old).value.toNat * (clamp p span height).toNat := by
    rw [retargetProduct_eq _ hpos, Nat.mod_eq_of_lt hfits, ite_self]
  rw [retarget_withWidth, retarget_withWidth, hprod, hprod]

/-! ## The walk -/

section
variable {p : Params} {v : View} {e q : Entry}

theorem walk_stop (h : ∀ m, ¬ Skips p v e m) (n : Nat) : walk p v n e = .ok e.bits := by
  have hskip : skipTo p v e = none := Option.eq_none_iff_forall_ne_some.mpr fun m hm => h m (skipTo_eq_some.mp hm)
  cases n with
  | zero => rfl
  | succ n => rw [walk, hskip]

theorem walk_step (h : Skips p v e q) (hq : q.heightInt = e.heightInt - 1) (n : Nat) :
    walk p v (n + 1) e = walk p v n q := by
  rw [walk, skipTo_eq_some.mpr h]
  exact if_neg (not_not.mpr hq)

theorem walk_inconsistent (h : Skips p v e q) (hq : q.heightInt ≠ e.heightInt - 1) (n : Nat) :
    walk p v (n + 1) e = .error (.chainInconsistent, q.heightInt) := by
  rw [walk, skipTo_eq_some.mpr h]
  exact if_pos hq

end

/-- One block lower, inside a period, is one place lower in the period. -/
theorem sub_one_emod {h i : Int} (hi : 0 < i) (hne : h % i ≠ 0) : (h - 1) % i = h % i - 1 := by
  have hlo := Int.emod_nonneg h hi.ne'
  have hlt := Int.emod_lt_of_pos h hi
  calc (h - 1) % i = (h % i - 1 + i * (h / i)) % i := by rw [sub_add_eq_add_sub, Int.emod_add_mul_ediv]
    _ = (h % i - 1) % i := Int.add_mul_emod_self_left _ _ _
    _ = h % i - 1 := Int.emod_eq_of_lt (by omega) (by omega)

/-- R191: how a walk ends that may take as many steps as lie between its first entry and the last boundary block. -/
theorem walk_outcome {p : Params} {v : View} {n : Nat} {e : Entry} (hi : 0 < p.interval)
    (hn : e.heightInt % p.interval = n) :
    ∃ k q, WalksTo p v k e q ∧ k ≤ n ∧
      (((∀ m, ¬ Skips p v q m) ∧ walk p v n e = .ok q.bits) ∨
       ∃ m, Skips p v q m ∧ m.heightInt ≠ q.heightInt - 1 ∧
        walk p v n e = .error (.chainInconsistent, m.heightInt)) := by
  induction n generalizing e with
  | zero =>
    have hstop (m : Entry) : ¬ Skips p v e m := fun ⟨_, hne, _⟩ => hne hn
    exact ⟨0, e, rfl, le_rfl, .inl ⟨hstop, walk_stop hstop 0⟩⟩
  | succ n ih =>
    by_cases hskip : ∃ m, Skips p v e m
    case neg =>
      have hstop := not_exists.mp hskip
      exact ⟨0, e, rfl, Nat.zero_le _, .inl ⟨hstop, walk_stop hstop _⟩⟩
    obtain ⟨m, hm⟩ := hskip
    obtain ⟨-, hinside, -⟩ := id hm
    by_cases hlow : m.heightInt = e.heightInt - 1
    · have hmn : m.heightInt % p.interval = n := by
        rw [hlow, sub_one_emod (by exact_mod_cast hi) hinside, hn]
        omega
      obtain ⟨k, q, hwalk, hk, hend⟩ := ih hmn
      refine ⟨k + 1, q, ⟨m, hm, hlow, hwalk⟩, Nat.succ_le_succ hk, ?_⟩
      rwa [walk_step hm hlow]
    · exact ⟨0, e, rfl, Nat.zero_le _, .inr ⟨m, hm, hlow, walk_inconsistent hm hlow n⟩⟩

/-! ## The branches of DR.NEXT -/

theorem inInt64_eq_true {x : Int} : inInt64 x = true ↔ -2 ^ 63 ≤ x ∧ x < 2 ^ 63 := decide_eq_true_iff

theorem inInt64_eq_false {x : Int} : inInt64 x = false ↔ ¬ (-2 ^ 63 ≤ x ∧ x < 2 ^ 63) := decide_eq_false_iff_not

section
variable {p : Params} {v : View} {e : Entry} {time : Int}

theorem nextDifficulty_height (h : e.heightInt < 0 ∨ e.heightInt = 2 ^ 31 - 1) :
    nextDifficulty p v (some e) time = .error (.operandRange, e.heightInt) :=
  if_pos h

section
variable (h0 : 0 ≤ e.heightInt) (h1 : e.heightInt < 2 ^ 31 - 1)
include h0 h1

theorem nextDifficulty_inside (hb : (e.heightInt + 1) % p.interval ≠ 0) :
    nextDifficulty p v (some e) time = nextInside p v e time :=
  (if_neg (by omega)).trans (if_pos hb)

theorem nextDifficulty_boundary (hb : (e.heightInt + 1) % p.interval = 0) :
    nextDifficulty p v (some e) time = nextBoundary p v e :=
  (if_neg (by omega)).trans (if_neg (not_not.mpr hb))
end

theorem nextInside_off (ha : p.allowMinDifficulty = false) : nextInside p v e time = .ok e.bits := by
  simp [nextInside, ha]

section
variable (ha : p.allowMinDifficulty = true)
include ha

theorem nextInside_overflow (hr : inInt64 (e.timeInt + 2 * p.spacing) = false) :
    nextInside p v e time = .error (.operandRange, e.timeInt + 2 * p.spacing) := by
  simp [nextInside, ha, hr]

theorem nextInside_late (hr : inInt64 (e.timeInt + 2 * p.spacing) = true) (ht : e.timeInt + 2 * p.spacing < time) :
    nextInside p v e time = .ok (encodeTarget p p.powLimit) := by
  simp [nextInside, ha, hr, ht]

theorem nextInside_walk (hr : inInt64 (e.timeInt + 2 * p.spacing) = true) (ht : time ≤ e.timeInt + 2 * p.spacing) :
    nextInside p v e time = walk p v (walkFuel p e) e := by
  simp [nextInside, ha, hr, ht.not_gt]
end

theorem nextBoundary_missing (h : v.ancestor e (e.heightInt - (p.interval - 1)) = none) :
    nextBoundary p v e = .error (.missingAncestor, e.heightInt - (p.interval - 1)) := by
  simp [nextBoundary, h]

section
variable {anc : Entry} (h : v.ancestor e (e.heightInt - (p.interval - 1)) = some anc)
include h

theorem nextBoundary_inconsistent (hh : anc.heightInt ≠ e.heightInt - (p.interval - 1)) :
    nextBoundary p v e = .error (.chainInconsistent, anc.heightInt) := by
  simp [nextBoundary, h, hh]

variable (hh : anc.heightInt = e.heightInt - (p.interval - 1))
include hh

theorem nextBoundary_overflow (hr : inInt64 (e.timeInt - anc.timeInt) = false) :
    nextBoundary p v e = .error (.operandRange, e.timeInt - anc.timeInt) := by
  simp [nextBoundary, h, hh, hr]

theorem nextBoundary_retarget (hr : inInt64 (e.timeInt - anc.timeInt) = true) :
    nextBoundary p v e =
      .ok (retarget p e.bits (e.timeInt - anc.timeInt) (retargetHeight p e.heightInt)) := by
  simp [nextBoundary, h, hh, hr]
end
end

theorem retargetHeight_eq (p : Params) (h : Int) :
    retargetHeight p h = if p.heightSource = .tip then h else h + 1 := by
  unfold retargetHeight
  split <;> simp [*]

/-! ## The command DR.NEXT -/

section
variable {s : State} {tip : Option Entry} {time : Int} (hf : s.fault = false)
  (hread : nextOperands s.view s.operands = some (tip, time))
include hf hread

theorem exec_drNext_run : exec .drNext s = .next (s.endNext (nextDifficulty s.cfg s.view tip time)) := by
  rw [exec, execDrNext, hread]
  exact serve_run _ _ _ _ (tip, time) hf

theorem exec_drNext_ok {c : Word} (h : nextDifficulty s.cfg s.view tip time = .ok c) :
    exec .drNext s = .next (s.done (.compact c)) := by
  rw [exec_drNext_run hf hread, h]
  rfl

theorem exec_drNext_error {c : Cause} {d : Int} (h : nextDifficulty s.cfg s.view tip time = .error (c, d)) :
    exec .drNext s = .next (s.raise c 0x31#8 d) := by
  rw [exec_drNext_run hf hread, h]
  rfl
end

theorem nextOperands_entry {v : View} {ops : List Operand} {r : Nat} {time : BitVec 64} {tip : Entry}
    (ho : ops = [.entry (some r), .i64 time]) (he : v.entry r = some tip) :
    nextOperands v ops = some (some tip, time.toInt) := by
  simp [ho, nextOperands, he]

/-- Settles O47, by the branches of DR.NEXT that fault. -/
theorem drNextFaults : Obligations.DrNextFaults := by
  intro s ref time hf ho faults
  refine ⟨?noTip, fun r tip hr he => ?tip⟩
  case noTip =>
    rintro rfl
    exact exec_drNext_error (tip := none) (time := time.toInt) hf (by rw [ho]; rfl) rfl
  have hfaults {c : Cause} {d : Int} (h : nextDifficulty s.cfg s.view (some tip) time.toInt = .error (c, d)) :
      faults c d := exec_drNext_error hf (nextOperands_entry (hr ▸ ho) he) h
  refine ⟨fun hh => hfaults (nextDifficulty_height hh), fun h0 h1 => ⟨fun hb => ?boundary, fun hb ha hr => ?inside⟩⟩
  case boundary =>
    have hnext := nextDifficulty_boundary (p := s.cfg) (v := s.view) (time := time.toInt) h0 h1 hb
    refine ⟨fun hnone => ?missing, fun anc hanc => ⟨fun hne => ?inconsistent, fun heq hr => ?overflow⟩⟩
    case missing => exact hfaults (hnext.trans (nextBoundary_missing hnone))
    case inconsistent => exact hfaults (hnext.trans (nextBoundary_inconsistent hanc hne))
    case overflow => exact hfaults (hnext.trans (nextBoundary_overflow hanc heq (inInt64_eq_false.mpr hr)))
  case inside =>
    exact hfaults ((nextDifficulty_inside h0 h1 hb).trans (nextInside_overflow ha (inInt64_eq_false.mpr hr)))

/-- Settles O48, by the branches of DR.NEXT that answer without the walk. -/
theorem drNextResult : Obligations.DrNextResult := by
  intro s r time tip hf ho he h0 h1 answers limit
  have hanswers {c : Word} (h : nextDifficulty s.cfg s.view (some tip) time.toInt = .ok c) : answers c :=
    exec_drNext_ok hf (nextOperands_entry ho he) h
  refine ⟨fun hb ha => ?off, fun hb ha hlo hhi ht => ?late, fun anc hb hanc hh hlo hhi => ?boundary⟩
  case off => exact hanswers ((nextDifficulty_inside h0 h1 hb).trans (nextInside_off ha))
  case late =>
    exact hanswers ((nextDifficulty_inside h0 h1 hb).trans (nextInside_late ha (inInt64_eq_true.mpr ⟨hlo, hhi⟩) ht))
  case boundary =>
    rw [← retargetHeight_eq]
    exact hanswers ((nextDifficulty_boundary h0 h1 hb).trans
      (nextBoundary_retarget hanc hh (inInt64_eq_true.mpr ⟨hlo, hhi⟩)))

/-- Settles O49, by how the walk from the tip ends. -/
theorem drNextWalks : Obligations.DrNextWalks := by
  intro s r time tip hf ho he h0 h1 hi hb ha hlo hhi ht
  have hread := nextOperands_entry ho he
  have hnext : nextDifficulty s.cfg s.view (some tip) time.toInt = walk s.cfg s.view (walkFuel s.cfg tip) tip :=
    (nextDifficulty_inside h0 h1 hb).trans (nextInside_walk ha (inInt64_eq_true.mpr ⟨hlo, hhi⟩) ht)
  have hfuel : tip.heightInt % s.cfg.interval = walkFuel s.cfg tip :=
    (Int.toNat_of_nonneg (Int.emod_nonneg _ (by omega))).symm
  obtain ⟨k, q, hwalk, hk, hend⟩ := walk_outcome (v := s.view) hi hfuel
  refine ⟨k, q, hwalk, by omega, hend.imp ?_ ?_⟩
  · exact fun ⟨hstop, hok⟩ => ⟨hstop, exec_drNext_ok hf hread (hnext.trans hok)⟩
  · exact fun ⟨m, hm, hne, herr⟩ => ⟨m, hm, hne, exec_drNext_error hf hread (hnext.trans herr)⟩

/-! ## Whose height a retarget receives -/

section
variable (p : Params) (x : HeightSource)

/-- DR.RETARGET does not read the height source; it receives a height. -/
theorem retarget_withHeightSource (old : Word) (span height : Int) :
    retarget { p with heightSource := x } old span height = retarget p old span height := rfl

theorem skipTo_withHeightSource (v : View) (e : Entry) : skipTo { p with heightSource := x } v e = skipTo p v e := rfl

theorem walk_withHeightSource (v : View) (n : Nat) (e : Entry) :
    walk { p with heightSource := x } v n e = walk p v n e := by
  induction n generalizing e with
  | zero => rfl
  | succ n ih => simp only [walk, skipTo_withHeightSource, ih]

theorem nextInside_withHeightSource (v : View) (e : Entry) (time : Int) :
    nextInside { p with heightSource := x } v e time = nextInside p v e time := by
  unfold nextInside
  rw [walk_withHeightSource]
  rfl
end

theorem retarget_congr_clamp {p : Params} {h k : Int} {span : Int} (hc : clamp p span h = clamp p span k) (old : Word) :
    retarget p old span h = retarget p old span k := by
  simp only [retarget, hc]

/-- A boundary retarget over two height sources that clamp alike is the same. -/
theorem nextBoundary_withHeightSource {p : Params} {e : Entry} (v : View)
    (hc : ∀ span, clamp p span e.heightInt = clamp p span (e.heightInt + 1)) :
    nextBoundary { p with heightSource := .tip } v e = nextBoundary { p with heightSource := .next } v e := by
  have hret (span : Int) : retarget { p with heightSource := .tip } e.bits span e.heightInt =
      retarget { p with heightSource := .next } e.bits span (e.heightInt + 1) :=
    (retarget_withHeightSource p .tip _ _ _).trans
      ((retarget_congr_clamp (hc span) _).trans (retarget_withHeightSource p .next _ _ _).symm)
  simp only [nextBoundary, retargetHeight, hret]

/-- At every boundary tip but 3499 both heights lie on one side of the threshold. -/
theorem nextDifficulty_withHeightSource {p : Params} (hp : p.SourceTimes) (v : View) {e : Entry} (time : Int)
    (he : e.heightInt ≠ 3499) :
    nextDifficulty { p with heightSource := .tip } v (some e) time =
      nextDifficulty { p with heightSource := .next } v (some e) time := by
  obtain ⟨-, -, -, hheight⟩ := hp
  have hc (span : Int) : clamp p span e.heightInt = clamp p span (e.heightInt + 1) :=
    clamp_congr_height (by omega) span
  simp only [nextDifficulty, nextInside_withHeightSource, nextBoundary_withHeightSource v hc]

/-- The configuration of the vectors of 95_test_vectors.md 4.4, `POW_LIMIT = 2^236 - 1`. -/
def thresholdParams : Params :=
  { instanceParams with powLimit := BitVec.ofNat 256 (2 ^ 236 - 1), noRetargeting := false }

/-- The boundary tip at height 3499, 600 seconds after its ancestor. -/
def thresholdTip : Entry := ⟨3499#32, 600#64, 0x1c0fffff#32, none, [(3480, 0)]⟩

def thresholdView : View := ⟨[⟨3480#32, 0#64, 0x1c0fffff#32, none, []⟩, thresholdTip]⟩

/-- Settles O50: the two heights of a boundary tip lie on either side of the threshold at 3499 alone, where the vectors
of 95_test_vectors.md 4.4 differ. -/
theorem heightSourceMattersOnce : Obligations.HeightSourceMattersOnce := by
  refine ⟨fun p v tip time hp htip => ?same, fun p a hp ha => ?clamped,
    ⟨thresholdParams, thresholdView, thresholdTip, 0, ?differ⟩⟩
  case same =>
    cases tip with
    | none => rfl
    | some e => exact nextDifficulty_withHeightSource hp v time (htip e rfl)
  case clamped =>
    rw [clamp_source hp, clamp_source hp]
    omega
  case differ => decide

/-! ## Honest views -/

theorem View.mem_of_entry {v : View} {r : Nat} {q : Entry} (h : v.entry r = some q) : q ∈ v.entries :=
  List.mem_of_getElem? h

section
variable {v : View} (hv : v.Honest) {e q : Entry} (he : e ∈ v.entries)
include hv he

/-- Duty 2 of R181. -/
theorem View.Honest.prev (h : v.prev e = some q) : q ∈ v.entries ∧ q.heightInt = e.heightInt - 1 := by
  obtain ⟨hprev, -, -, -⟩ := hv e he
  obtain ⟨r, hr, hq⟩ := Option.bind_eq_some_iff.mp h
  exact ⟨View.mem_of_entry hq, hprev r hr q hq⟩

/-- Duty 3 of R181. -/
theorem View.Honest.ancestor {h : Int} (ha : v.ancestor e h = some q) : q ∈ v.entries ∧ q.heightInt = h := by
  obtain ⟨-, hanc, -, -⟩ := hv e he
  obtain ⟨a, hfind, hq⟩ := Option.bind_eq_some_iff.mp ha
  have hh : a.1 = h := by simpa using List.find?_some hfind
  exact ⟨View.mem_of_entry hq, (hanc a (List.mem_of_find?_eq_some hfind) q hq).trans hh⟩

/-- Duty 4 of R181. -/
theorem View.Honest.time : 0 ≤ e.timeInt ∧ e.timeInt < 2 ^ 32 := by
  obtain ⟨-, -, htime, -⟩ := hv e he
  exact htime
end

/-- Over an honest view the walk never meets a previous entry of a wrong height. -/
theorem walk_honest {v : View} (hv : v.Honest) (p : Params) (n : Nat) {e : Entry} (he : e ∈ v.entries) :
    ∃ c, walk p v n e = .ok c := by
  induction n generalizing e with
  | zero => exact ⟨_, rfl⟩
  | succ n ih =>
    by_cases hskip : ∃ m, Skips p v e m
    · obtain ⟨m, hm⟩ := hskip
      obtain ⟨hmem, hlow⟩ := hv.prev he hm.1
      exact walk_step hm hlow n ▸ ih hmem
    · exact ⟨_, walk_stop (not_exists.mp hskip) _⟩

section
variable {p : Params} (hp : p.SourceTimes) {v : View} (hv : v.Honest) {e : Entry} (he : e ∈ v.entries)
include hp hv he

theorem nextInside_honest (time : Int) : ∃ c, nextInside p v e time = .ok c := by
  obtain ⟨-, hspacing, -, -⟩ := hp
  obtain ⟨hlo, hhi⟩ := hv.time he
  have hr : inInt64 (e.timeInt + 2 * p.spacing) = true := inInt64_eq_true.mpr (by omega)
  cases ha : p.allowMinDifficulty with
  | false => exact ⟨_, nextInside_off ha⟩
  | true =>
    rcases lt_or_ge (e.timeInt + 2 * p.spacing) time with ht | ht
    · exact ⟨_, nextInside_late ha hr ht⟩
    · exact nextInside_walk ha hr ht ▸ walk_honest hv p _ he

theorem nextBoundary_honest :
    (∃ c, nextBoundary p v e = .ok c) ∨ nextBoundary p v e = .error (.missingAncestor, e.heightInt - 19) := by
  obtain ⟨hinterval, -, -, -⟩ := hp
  have hha : e.heightInt - (p.interval - 1) = e.heightInt - 19 := by omega
  cases ha : v.ancestor e (e.heightInt - (p.interval - 1)) with
  | none => exact .inr (hha ▸ nextBoundary_missing ha)
  | some anc =>
    obtain ⟨hmem, hh⟩ := hv.ancestor he ha
    obtain ⟨hlo, hhi⟩ := hv.time he
    obtain ⟨halo, hahi⟩ := hv.time hmem
    exact .inl ⟨_, nextBoundary_retarget ha hh (inInt64_eq_true.mpr (by omega))⟩
end

/-- Settles O51, inside a period and at a boundary. -/
theorem honestViewNeverInconsistent : Obligations.HonestViewNeverInconsistent := by
  intro p v tip time hp hv htip h0 h1
  by_cases hb : (tip.heightInt + 1) % p.interval = 0
  · rw [nextDifficulty_boundary h0 h1 hb]
    exact nextBoundary_honest hp hv htip
  · rw [nextDifficulty_inside h0 h1 hb]
    exact .inl (nextInside_honest hp hv htip time)

end Sys2Proof.Machine
end

section
/-! SUPPORT. The latch and the phase check (60_exceptions.md R223 to R226): how a command ends on a latched block, and
what the absorbing commands do in phase FINALIZED. -/

namespace Sys2Proof.Machine

/-! ## A latched block -/

@[simp] theorem observe_cause (s : State) : s.observe.cause = s.cause := by
  unfold State.observe
  split <;> simp

@[simp] theorem observe_info (s : State) : s.observe.info = s.info := by
  unfold State.observe
  split <;> simp

/-- On a latched block a command is refused, unless it is HE.STATE with the empty tuple. -/
theorem Ending.latched {i : Instr} {s t : State} (h : Ending i s t) (hs : s.fault = true) :
    t = s.refuse ∨ (i = .heState ∧ s.operands = [] ∧ t = s.observe) := by
  cases h with
  | refused _ => exact .inl rfl
  | observed hi ho => exact .inr ⟨hi, ho, rfl⟩
  | faulted c d hf _ _ => simp [hs] at hf
  | answered r hf => simp [hs] at hf
  | absorbed bs hf _ => simp [hs] at hf
  | finalized r hf _ => simp [hs] at hf
  | initial _ hf => simp [hs] at hf

theorem rejectWord_latched {s : State} (h : s.fault = true) (w : Word) (d : DecodeFault) :
    s.rejectWord w d = s.refuse := by
  simp [State.rejectWord, h]

/-- On a latched block a command word, whether it decodes or not, is refused, unless it is HE.STATE with the empty tuple
(R224). -/
theorem step_latched {s t : State} {c : Command} {rest : List HostAction} (hp : s.pending = .command c :: rest)
    (hs : s.fault = true) (h : step s = .next t) :
    t = s.refuse ∨ (c.word = encode .heState ∧ c.operands = [] ∧ t = s.observe) := by
  cases hd : decode c.word with
  | ok i =>
    rw [step_command s c rest i hp hd] at h
    refine ((exec_ending h).latched hs).imp_right fun ⟨hi, ho, ht⟩ => ?_
    exact ⟨decode_eq_ok_iff.mp (hi ▸ hd), s.operands_of_pending c rest hp ▸ ho, ht⟩
  | error d =>
    rw [step_reject s c rest d hp hd, rejectWord_latched hs] at h
    cases h
    exact .inl rfl

/-- Settles O11: the block has a step, and it is no observation. -/
theorem latchedBlockRefuses : Obligations.LatchedBlockRefuses := by
  intro s c rest hp hs hne
  obtain ⟨t, ht⟩ := step_total (s := s) (by simp [hp])
  rcases step_latched hp hs ht with rfl | ⟨hw, ho, -⟩
  · rw [ht, State.refuse, State.complete, hp, List.tail_cons]
  · exact absurd ⟨hw, ho⟩ hne

/-- Settles O12: a refusal and an observation both leave the record, the engine and the configuration. -/
theorem onlyPowerOnClearsLatch : Obligations.OnlyPowerOnClearsLatch := by
  refine ⟨fun s t c rest hp hs h => ?_, fun s rest hp => ⟨_, step_powerOn s rest hp, rfl, rfl, rfl⟩⟩
  rcases step_latched hp hs h with rfl | ⟨-, -, rfl⟩ <;> simp [hs]

/-! ## Use after finalization -/

theorem noOperands_of_fits {ops : List Operand} (h : tupleFits [] ops = true) : noOperands ops = some () := by
  cases ops with
  | nil => rfl
  | cons o ops => cases h

theorem bytesOperand_of_fits {n : Nat} {ops : List Operand} (h : tupleFits [.bytes n] ops = true) :
    ∃ bs, bytesOperand n ops = some bs := by
  cases ops with
  | nil => cases h
  | cons o ops =>
    simp only [tupleFits, Bool.and_eq_true] at h
    obtain ⟨ho, hrest⟩ := h
    cases o with
    | bytes bs =>
      cases ops with
      | nil => exact ⟨bs, if_pos (beq_iff_eq.mp ho)⟩
      | cons _ _ => cases hrest
    | _ => cases ho

/-- A served command that checks the phase faults in phase FINALIZED, whatever its effect would be (R223). -/
theorem serve_finalized {α : Type} {s : State} {opc : Byte} {o : Option α} {a : α} {n : Nat} {e : α → Engine}
    {r : α → Result} (hf : s.fault = false) (hp : s.engine.phase = .finalized) (ho : o = some a) :
    s.serve opc o n (fun x => s.inReady opc (e x) (r x)) = .next (s.raise .useAfterFinalize opc 0) := by
  rw [ho, serve_run _ _ _ _ a hf, inReady_finalized _ _ _ _ hp]

/-- Settles O31: each of the three reads its tuple and then checks the phase. -/
theorem useAfterFinalizeFaults : Obligations.UseAfterFinalizeFaults := by
  rintro i s hf hp (⟨d, rfl⟩ | ⟨n, rfl⟩ | rfl) hfit
  · exact serve_finalized hf hp (noOperands_of_fits hfit)
  · obtain ⟨bs, hread⟩ := bytesOperand_of_fits hfit
    exact serve_finalized hf hp hread
  · exact serve_finalized hf hp (noOperands_of_fits hfit)

end Sys2Proof.Machine
end

section
/-! The reset statements (70_reset_and_hazards.md R250, R254): what power-on reset and HE.RESET leave, and the
configuration of the reset state. -/

namespace Sys2Proof.Machine

/-- STATUS shows nothing of the host interface, which is all a power cycle keeps beside the configuration. -/
theorem powerCycle_statusWord (s : State) : s.powerCycle.statusWord = 0#32 :=
  powerOn_statusWord s.cfg

/-- Settles O13: a power cycle and HE.RESET both write the initial engine; only the first writes the fault record. -/
theorem resetTable : Obligations.ResetTable := by
  refine ⟨fun s rest hp => ⟨s.powerCycle, step_powerOn s rest hp, ?_⟩, fun s hf ho => ⟨_, exec_heReset_run hf ho, ?_⟩⟩
  · exact ⟨rfl, rfl, rfl, rfl, powerCycle_statusWord s, rfl⟩
  · exact ⟨rfl, rfl, rfl, rfl, rfl⟩

/-- Cycling the power of a block just powered on changes nothing, so it meets the invariant as any power cycle does. -/
theorem powerOn_inv (p : Params) : (State.powerOn p).Inv :=
  powerCycle_inv (State.powerOn p)

/-- R114: each row of the candidate table of R115 is a permutation. -/
theorem instanceParams_sigmaPermutes : instanceParams.SigmaPermutes := by decide

/-- R254 item 3, whatever the free value is (log 3). -/
theorem openPowLimit_ne_zero : openPowLimit ≠ 0#256 := by
  unfold openPowLimit
  split
  · decide
  · assumption

/-- R254: what instantiation checks, the free `POW_LIMIT` included. -/
theorem instanceParams_valid : instanceParams.Valid :=
  ⟨instanceParams_sigmaPermutes, openPowLimit_ne_zero, le_refl 14, by decide, by decide, by decide⟩

/-- Settles O14: the engine and the record are initial, and the configuration is valid. -/
theorem resetMeetsInvariant : Obligations.ResetMeetsInvariant :=
  ⟨powerOn_inv instanceParams, if_pos instanceParams_valid⟩

end Sys2Proof.Machine
end

section
/-! SUPPORT. The operand tuples that 30_encoding.md R73 leaves open, as the model settles them (logs 10 and 11). -/

namespace Sys2Proof.Machine

/-! ## HE.WRITE -/

/-- Only a `BYTES` operand of the length asked is read as one, and the empty tuple as no bytes. -/
theorem bytesOperand_eq_none {n : Nat} {ops : List Operand} (h : tupleFits [.bytes n] ops = false)
    (hn : ops = [] → n ≠ 0) : bytesOperand n ops = none := by
  unfold bytesOperand
  split
  · exact if_neg (hn rfl)
  · simpa [tupleFits, Operand.fits] using h
  · rfl

/-- The bytes received are those of the `BYTES` operands, wherever they stand in the tuple (log 10). -/
theorem bytesReceived_eq_sum (ops : List Operand) : bytesReceived ops = (ops.map Operand.byteCount).sum := by
  induction ops with
  | nil => rfl
  | cons o ops ih => cases o <;> simp [bytesReceived, Operand.byteCount, ih]

/-- HE.WRITE faults with the bytes received on every tuple it does not read (R103, R221). -/
theorem exec_heWrite_unread {n : BitVec 16} {s : State} (hf : s.fault = false)
    (hread : bytesOperand n.toNat s.operands = none) :
    exec (.heWrite n) s =
      .next (s.raise .operandMismatch 0x03#8 ((s.operands.map Operand.byteCount).sum : Nat)) := by
  rw [exec, execHeWrite, serve_of_none hf hread, bytesReceived_eq_sum]

/-- HE.WRITE of no bytes takes the empty tuple and leaves the engine. -/
theorem exec_heWrite_empty {s : State} (hf : s.fault = false) (ho : s.operands = []) (hp : s.engine.phase = .ready) :
    exec (.heWrite 0#16) s = .next (s.done .done) := by
  rw [exec, execHeWrite, ho]
  exact (serve_run _ _ _ _ [] hf).trans (congrArg _ (inReady_ready _ _ _ _ hp))

/-! ## DR.NEXT -/

/-- DR.NEXT faults on a reference that is no entry of the view (R221). -/
theorem exec_drNext_dangling {s : State} {r : Nat} {time : BitVec 64} (hf : s.fault = false)
    (ho : s.operands = [.entry (some r), .i64 time]) (he : s.view.entry r = none) :
    exec .drNext s = .next (s.raise .operandMismatch 0x31#8 2) := by
  have hread : nextOperands s.view s.operands = none := by simp [ho, nextOperands, he]
  refine (serve_of_none hf hread).trans ?_
  rw [ho]
  rfl

/-- Settles O55, by what the two commands read of the open tuples. -/
theorem openTuplesAnswered : Obligations.OpenTuplesAnswered := by
  refine ⟨fun n s hf h hn => exec_heWrite_unread hf (bytesOperand_eq_none h fun ho => ?_),
    fun _ hf ho hp => exec_heWrite_empty hf ho hp, fun _ _ _ hf ho he => exec_drNext_dangling hf ho he⟩
  exact BitVec.toNat_ne.mp (hn ho)

end Sys2Proof.Machine
end

section
/-! The layout of compact values under every configured codec (41_target_codec.md R149 items 1 and 2; log 5). -/

namespace Sys2Proof.Machine

/-! ## `DECODE` -/

/-- What a decode of `c` keeps of the layout: `NEG` only under the sign flag, no more bytes than the exponent says. -/
structure DecodeLayout (c : Word) (d : Decoded) : Prop where
  sign_of_neg : d.neg = true → c.getLsbD 23 = true
  value_lt : d.value.toNat < 2 ^ (8 * (c.extractLsb' 24 8).toNat)

/-- A mantissa of three bytes scaled to an exponent has no more bytes than the exponent says. -/
theorem scaledValue_mantissa_lt {size word : Nat} (h : word < 2 ^ 24) :
    scaledValue size (mantissa size word) < 2 ^ (8 * size) := by
  unfold scaledValue mantissa
  split
  next hs =>
    rw [Nat.div_lt_iff_lt_mul (by positivity), ← Nat.pow_add]
    exact h.trans_le (Nat.pow_le_pow_right (by decide) (by omega))
  next hs =>
    have hpow : 2 ^ (8 * size) = 2 ^ 24 * 2 ^ (8 * (size - 3)) := by rw [← Nat.pow_add]; congr 1; omega
    rw [hpow]
    exact (Nat.mod_le ..).trans_lt (Nat.mul_lt_mul_of_pos_right h (by positivity))

theorem referenceDecode_layout (c : Word) : DecodeLayout c (referenceDecode c) := by
  refine ⟨fun h => (negCondition_eq_true.mp h).2, ?_⟩
  rw [referenceDecode_value]
  exact scaledValue_mantissa_lt ((BitVec.isLt _).trans (by decide))

theorem otherDecode_layout (k : Nat) (c : Word) : DecodeLayout c (otherDecode k c) := by
  refine ⟨fun h => ?_, ?_⟩
  · have hsign := (Bool.and_eq_true_iff.mp h).1
    simpa using hsign
  · rw [otherDecode, BitVec.toNat_ofNat]
    exact (Nat.mod_le ..).trans_lt (Nat.mod_lt _ (by positivity))

/-! ## `ENCODE` -/

/-- `e` is a length of `t` in bytes, with or without its sign bit: the double of `t` is one bit longer. -/
structure ByteLength (t e : Nat) : Prop where
  byteSize_le : byteSize t ≤ e
  le_double : e ≤ byteSize (2 * t)

/-- The model's reading of R149 item 2 (log 5): the bytes hold the target, and at most a sign bit above it. -/
theorem byteLength_iff {t e : Nat} :
    ByteLength t e ↔ t < 2 ^ (8 * e) ∧ ∀ k, 2 * t < 2 ^ (8 * k) → e ≤ k :=
  ⟨fun h => ⟨byteSize_le_iff.mp h.byteSize_le, fun _ hk => h.le_double.trans (byteSize_le_iff.mpr hk)⟩,
    fun h => ⟨byteSize_le_iff.mpr h.1, h.2 _ (byteSize_le_iff.mp le_rfl)⟩⟩

/-- A target at an exponent longer than its bytes and sign bit take leaves the top nine bits of the mantissa clear. -/
theorem shiftedTo_lt_of_byteSize_lt {e t : Nat} (h : byteSize (2 * t) < e) : shiftedTo e t < 2 ^ 15 := by
  obtain ⟨k, rfl⟩ := Nat.exists_eq_succ_of_ne_zero (Nat.ne_zero_of_lt h)
  have ht : 2 * t < 2 ^ (8 * k) := byteSize_le_iff.mp (Nat.le_of_lt_succ h)
  rw [shiftedTo, Nat.div_lt_iff_lt_mul (by positivity), Nat.mul_succ, Nat.pow_add]
  omega

theorem Encodes.byteLength {t e m : Nat} (h : Encodes t e m) (ht : t ≠ 0) : ByteLength t e := by
  have hlt : shiftedTo e t < 2 ^ 23 := h.mantissa_eq ▸ h.mantissa_lt
  have hle : 2 ^ 15 ≤ shiftedTo e t := h.mantissa_eq ▸ h.le_mantissa ht
  exact ⟨shiftedTo_lt_iff.mp (hlt.trans (by decide)),
    Nat.le_of_not_lt fun hlong => absurd (shiftedTo_lt_of_byteSize_lt hlong) (Nat.not_lt.mpr hle)⟩

theorem referenceEncode_byteLength (t : Target) :
    ByteLength t.toNat ((referenceEncode t).extractLsb' 24 8).toNat := by
  rcases eq_or_ne t 0#256 with rfl | ht
  · exact ⟨by decide, by decide⟩
  · exact (referenceEncode_fields t).2.byteLength (BitVec.toNat_ne.mp ht)

theorem bitLength_two_mul {n : Nat} (h : n ≠ 0) : bitLength (2 * n) = bitLength n + 1 := by
  rw [bitLength, bitLength, if_neg (by omega), if_neg h, Nat.log2_two_mul h]

theorem byteSize_le_two_mul (n : Nat) : byteSize n ≤ byteSize (2 * n) :=
  byteSize_le_iff.mpr ((Nat.le_mul_of_pos_left n two_pos).trans_lt (byteSize_le_iff.mp le_rfl))

/-- A codec that counts the sign byte does so only where the sign bit needs one. -/
theorem otherExponent_byteLength (k : Nat) (t : Target) : ByteLength t.toNat (otherExponent k t) := by
  unfold otherExponent
  split
  next h =>
    obtain ⟨ht, hfull, -⟩ := h
    have hlen := bitLength_two_mul (BitVec.toNat_ne.mp ht)
    refine ⟨Nat.le_succ _, ?_⟩
    unfold byteSize
    omega
  next => exact ⟨le_rfl, byteSize_le_two_mul _⟩

theorem otherExponent_lt (k : Nat) (t : Target) : otherExponent k t < 2 ^ 8 := by
  have hdouble : byteSize (2 * t.toNat) ≤ 33 := byteSize_le_iff.mpr (by omega)
  exact ((otherExponent_byteLength k t).le_double.trans hdouble).trans_lt (by decide)

theorem otherEncode_exponent (k : Nat) (t : Target) :
    ((otherEncode k t).extractLsb' 24 8).toNat = otherExponent k t := by
  have hfield : (otherEncode k t).extractLsb' 24 8 = BitVec.ofNat 8 (otherExponent k t) :=
    BitVec.extractLsb'_append_eq_left
  rw [hfield, BitVec.toNat_ofNat, Nat.mod_eq_of_lt (otherExponent_lt k t)]

/-! ## The configured codec -/

theorem decodeTarget_layout (p : Params) (c : Word) : DecodeLayout c (decodeTarget p c) := by
  unfold decodeTarget
  split
  · exact referenceDecode_layout c
  · exact otherDecode_layout _ c

theorem encodeTarget_byteLength (p : Params) (t : Target) :
    ByteLength t.toNat ((encodeTarget p t).extractLsb' 24 8).toNat := by
  unfold encodeTarget
  split
  · exact referenceEncode_byteLength t
  next k _ =>
    rw [otherEncode_exponent]
    exact otherExponent_byteLength k t

/-- Settles O57, by the layout both kinds of codec keep. -/
theorem everyCodecKeepsLayout : Obligations.EveryCodecKeepsLayout :=
  ⟨fun p c => ⟨(decodeTarget_layout p c).sign_of_neg, (decodeTarget_layout p c).value_lt⟩,
    fun p t => byteLength_iff.mp (encodeTarget_byteLength p t)⟩

end Sys2Proof.Machine
end
